-- ==== Sys2Proof/Word.lean ====
section
/-! DEFINITION. The words of the block: the pushed byte, the payload count and the decode key.
Nothing else in the block is a word the spec computes with. -/

namespace Sys2Proof

/-- The input unit: one unsigned 8-bit byte (R5). -/
abbrev Byte := BitVec 8

/-- The payload byte count `CNT` between pushes: 0 to 5 (R14). -/
abbrev Count := Fin 6

/-- The decode key `K[12:0] = {LT[1:0], CNT[2:0], b[7:0]}` (R50). -/
abbrev Key := BitVec 13

end Sys2Proof
end

