-- ==== Sys2Proof/Config.lean ====
section
/-! DEFINITION. The block's constants: the protocol's message types (R2, R46), the lengths of a frame
(R6, R7), and the one value the model names because the spec leaves it open, `BUF` at reset (R27). The block
has no configuration input (R22) and no operation whose result is open (D23), so there is no free value. -/

namespace Sys2Proof

/-- The four message types of the protocol (R9, R46). -/
inductive MessageType where
  | reserved
  | telemetry
  | setAttitude
  | attitudeAchieved
  deriving DecidableEq, Repr

/-- The two types a header latches; both carry a triplet (R11). Reserved and AttitudeAchieved are never
latched (R13). -/
inductive PayloadType where
  | telemetry
  | setAttitude
  deriving DecidableEq, Repr

/-- `HDR_LEN`: a header is one byte (R6). -/
def Config.hdrLen : Nat := 1

/-- `PAY_LEN`: a payload, where present, is six bytes (R7). -/
def Config.payLen : Nat := 6

/-- `BUF` in `State.reset`. The spec leaves it unspecified and lets a model take any fixed value (R27, D6).
DESIGN CHOICE (log entry 4): zero in every cell. Unsafe: a claim that rests on it is not the spec's. -/
def Config.resetBuf : Vector Byte 6 := Vector.replicate 6 0#8

end Sys2Proof
end

