-- ==== Sys2Proof/Syntax.lean ====
section
/-! DEFINITION. The operations a push performs (R51): what an instruction set is for a machine without a
program. One constructor per mnemonic of spec/opcode_table.json; an operation whose keys are not one cube takes
several rows of the table and stays one constructor (R51, log entry 14). An operation carries what its key holds:
the pushed byte, and for the payload operations the `LT` and `CNT` that select it. -/

namespace Sys2Proof

/-- The operation of one push (R51). -/
inductive Instr where
  /-- `HDR_RESERVED` (R61): header 0x00 in Idle. -/
  | hdrReserved
  /-- `HDR_TELEMETRY` (R62): header 0x01 in Idle. -/
  | hdrTelemetry
  /-- `HDR_SETATTITUDE` (R63): header 0x02 in Idle. -/
  | hdrSetAttitude
  /-- `HDR_ATTITUDE_ACHIEVED` (R64): header 0x03 in Idle. -/
  | hdrAttitudeAchieved
  /-- `HDR_INVALID` (R65): any other byte in Idle. -/
  | hdrInvalid (b : Byte)
  /-- `PAY_APPEND` (R70): payload byte number `count + 1` of a frame of the latched type. -/
  | payAppend (latched : PayloadType) (count : Count) (b : Byte)
  /-- `PAY_FINAL` (R71): the sixth payload byte. -/
  | payFinal (latched : PayloadType) (b : Byte)
  deriving DecidableEq, Repr

end Sys2Proof
end

