-- ==== Sys2Proof/WellFormed.lean ====
section
/-! DEFINITION. Which operations the key map of R51 can select at all. -/

namespace Sys2Proof

/-- The check: an invalid header is 0x04 to 0xFF (R65), and `PAY_APPEND` takes counts 0 to 4 (R70). -/
def Instr.wf : Instr → Bool
  | .hdrReserved => true
  | .hdrTelemetry => true
  | .hdrSetAttitude => true
  | .hdrAttitudeAchieved => true
  | .hdrInvalid b => decide (4 ≤ b.toNat)
  | .payAppend _ count _ => decide (count.val ≤ 4)
  | .payFinal _ _ => true

/-- The operation is one of those of R51. -/
abbrev WellFormed (i : Instr) : Prop := i.wf = true

end Sys2Proof
end

