-- ==== Sys2Proof/Decode.lean ====
section
/-! DEFINITION. The decode key and the operation map (R50, R51, spec/opcode_table.json), the decoder over it and
the encoder of an operation's key. -/

namespace Sys2Proof

/-! ### Fields of the key (R50) -/

/-- `K[12:11]`, the latched type. -/
def keyLt (k : Key) : BitVec 2 := k.extractLsb' 11 2

/-- `K[10:8]`, the payload count. -/
def keyCnt (k : Key) : BitVec 3 := k.extractLsb' 8 3

/-- `K[7:0]`, the pushed byte. -/
def keyByte (k : Key) : Byte := k.extractLsb' 0 8

/-- `{LT, CNT, b}` (R50). -/
def keyOf (lt : BitVec 2) (cnt : BitVec 3) (b : Byte) : Key := lt ++ cnt ++ b

/-- The code `LT` holds for a latched type: 0b01 or 0b10 (R11). -/
def PayloadType.code : PayloadType → BitVec 2
  | .telemetry => 0b01#2
  | .setAttitude => 0b10#2

/-- The type a value of `LT` latches; none for 0b00 (nothing latched) and for 0b11, which is not a value (R11). -/
def latchedOfCode (lt : BitVec 2) : Option PayloadType :=
  if lt = 0b01#2 then some .telemetry
  else if lt = 0b10#2 then some .setAttitude
  else none

/-- The 3-bit code of a count (R14, D3). -/
def countCode (c : Count) : BitVec 3 := BitVec.ofNat 3 c.val

/-- The count a value of `CNT` stands for; none for 6 and 7, never held between pushes (R14). -/
def countOfCode (cnt : BitVec 3) : Option Count :=
  if h : cnt.toNat < 6 then some ⟨cnt.toNat, h⟩ else none

/-- The header byte of a message type (R46). -/
def MessageType.header : MessageType → Byte
  | .reserved => 0x00#8
  | .telemetry => 0x01#8
  | .setAttitude => 0x02#8
  | .attitudeAchieved => 0x03#8

/-- The frame tag of a latched type (the table of R11). -/
def PayloadType.tag : PayloadType → MessageType
  | .telemetry => .telemetry
  | .setAttitude => .setAttitude

/-- How many payload bytes follow a header of this type (R7, R48). -/
def MessageType.payloadLength : MessageType → Nat
  | .reserved => 0
  | .telemetry => Config.payLen
  | .setAttitude => Config.payLen
  | .attitudeAchieved => 0

/-- The length in bytes of a frame of this type, which its header alone gives: 1 or 7 (R47, R48). -/
def MessageType.frameLength (m : MessageType) : Nat := Config.hdrLen + m.payloadLength

/-- The byte an operation's push delivers (the Operands of R61 to R65, R70, R71). -/
def Instr.byte : Instr → Byte
  | .hdrReserved => MessageType.reserved.header
  | .hdrTelemetry => MessageType.telemetry.header
  | .hdrSetAttitude => MessageType.setAttitude.header
  | .hdrAttitudeAchieved => MessageType.attitudeAchieved.header
  | .hdrInvalid b => b
  | .payAppend _ _ b => b
  | .payFinal _ b => b

/-! ### The operation map -/

/-- The mnemonics of the operation map (R51). -/
inductive Operation where
  | hdrReserved
  | hdrTelemetry
  | hdrSetAttitude
  | hdrAttitudeAchieved
  | hdrInvalid
  | payAppend
  | payFinal
  deriving DecidableEq, Repr

/-- One row of the operation map. -/
structure OpcodeRow where
  op : Operation
  bits : Key
  mask : Key
  deriving DecidableEq, Repr

/-- A row matches when `(K AND mask) = match` (R51). -/
def OpcodeRow.selects (r : OpcodeRow) (k : Key) : Bool := k &&& r.mask == r.bits

/-- The rows of the header family (R61 to R65); they ignore `CNT`. -/
def headerRows : List OpcodeRow := [
  ⟨.hdrReserved, 0x0000, 0x18FF⟩,
  ⟨.hdrTelemetry, 0x0001, 0x18FF⟩,
  ⟨.hdrSetAttitude, 0x0002, 0x18FF⟩,
  ⟨.hdrAttitudeAchieved, 0x0003, 0x18FF⟩,
  ⟨.hdrInvalid, 0x0004, 0x18FC⟩,
  ⟨.hdrInvalid, 0x0008, 0x18F8⟩,
  ⟨.hdrInvalid, 0x0010, 0x18F0⟩,
  ⟨.hdrInvalid, 0x0020, 0x18E0⟩,
  ⟨.hdrInvalid, 0x0040, 0x18C0⟩,
  ⟨.hdrInvalid, 0x0080, 0x1880⟩]

/-- The rows of the payload family (R70, R71). -/
def payloadRows : List OpcodeRow := [
  ⟨.payAppend, 0x0800, 0x1C00⟩,
  ⟨.payAppend, 0x0C00, 0x1F00⟩,
  ⟨.payAppend, 0x1000, 0x1C00⟩,
  ⟨.payAppend, 0x1400, 0x1F00⟩,
  ⟨.payFinal, 0x0D00, 0x1F00⟩,
  ⟨.payFinal, 0x1500, 0x1F00⟩]

/-- The operation map of R51, row for row. -/
def opcodeRows : List OpcodeRow := headerRows ++ payloadRows

/-- The operation of a row with the operands the key holds. -/
def Operation.instr (k : Key) : Operation → Option Instr
  | .hdrReserved => some .hdrReserved
  | .hdrTelemetry => some .hdrTelemetry
  | .hdrSetAttitude => some .hdrSetAttitude
  | .hdrAttitudeAchieved => some .hdrAttitudeAchieved
  | .hdrInvalid => some (.hdrInvalid (keyByte k))
  | .payAppend =>
    match latchedOfCode (keyLt k), countOfCode (keyCnt k) with
    | some t, some c => some (.payAppend t c (keyByte k))
    | _, _ => none
  | .payFinal =>
    match latchedOfCode (keyLt k) with
    | some t => some (.payFinal t (keyByte k))
    | none => none

/-- The operation a key selects (R51, R60); none for the keys of unreachable states (R54). -/
def decode (k : Key) : Option Instr :=
  match opcodeRows.find? (·.selects k) with
  | some r => r.op.instr k
  | none => none

/-- The key of an operation: `LT` and `CNT` as its Operands name them, and its byte. In Idle `CNT` is 0 (R18). -/
def encode (i : Instr) : Key :=
  match i with
  | .hdrReserved => keyOf 0b00#2 0b000#3 i.byte
  | .hdrTelemetry => keyOf 0b00#2 0b000#3 i.byte
  | .hdrSetAttitude => keyOf 0b00#2 0b000#3 i.byte
  | .hdrAttitudeAchieved => keyOf 0b00#2 0b000#3 i.byte
  | .hdrInvalid _ => keyOf 0b00#2 0b000#3 i.byte
  | .payAppend latched count _ => keyOf latched.code (countCode count) i.byte
  | .payFinal latched _ => keyOf latched.code 0b101#3 i.byte

/-- The host's view of the decoder: a key given as a number, bit 0 its least significant bit. A key has 13 bits
(R50), so a number with a bit above bit 12 is no key. -/
def decodeTableWord (_nbits w : Nat) : Option Instr :=
  if w < 2 ^ 13 then decode (BitVec.ofNat 13 w) else none

end Sys2Proof
end

