-- ==== Sys2Proof/Machine/State.lean ====
section
/-! DEFINITION. The block's state, what a push gives back, and the host's side of the interface, as plain data.
The block itself is `Block` and nothing else (R10, R28): `LT` and `CNT` live in `sync`, `BUF` in `buf`. -/

namespace Sys2Proof.Machine

/-! ### What a push gives back (R55) -/

/-- Three signed 16-bit axis values (R8, R55), as integers; R72 gives their range. -/
structure Triplet where
  x : Int
  y : Int
  z : Int
  deriving DecidableEq, Repr

/-- A decoded message: a tag and, for two of the tags, a triplet (R55). -/
structure Frame where
  tag : MessageType
  payload : Option Triplet
  deriving DecidableEq, Repr

/-- The block's one error (R80). It records nothing more (R81). -/
inductive DecodeError where
  | invalidHeader
  deriving DecidableEq, Repr

/-- The outcome of a push (R55). -/
inductive PushOutcome where
  /-- `Continue`: the byte is accepted, no frame yet. -/
  | cont
  /-- `Complete(Frame)`. -/
  | complete (frame : Frame)
  /-- `Error(InvalidHeader)`. -/
  | error (e : DecodeError)
  deriving DecidableEq, Repr

/-! ### The block -/

/-- The phase, derived from `LT` (R12). -/
inductive Phase where
  | idle
  | accumulatingPayload
  deriving DecidableEq, Repr

/-- `LT` and `CNT` together, the position within a frame (R20). It holds exactly the pairs INV allows (R18), as
D14 asks of a model's state type: `LT = NONE` with `CNT = 0`, or a latched type with `CNT` from 0 to 5 (log entry 1). -/
inductive Sync where
  | idle
  | accumulating (latched : PayloadType) (count : Count)
  deriving DecidableEq, Repr

/-- The block's whole state (R10). -/
structure Block where
  /-- `LT` and `CNT`. -/
  sync : Sync
  /-- `BUF[0]` to `BUF[5]` (R16). -/
  buf : Vector Byte 6
  deriving DecidableEq, Repr

/-! ### The host's side -/

/-- What the host does next (R96). -/
inductive Event where
  /-- A push of one byte (R60). -/
  | push (b : Byte)
  /-- The reset event (R100). -/
  | reset
  /-- Nothing is pushed (R85). -/
  | noPush
  /-- Two pushes the host has not serialized (R40, R107); the model gives them no step (R96, D15). -/
  | unserialized (b c : Byte)
  deriving DecidableEq, Repr

/-- One event and the outcome the host was given for it, none for an event that is no push (R85, R100). -/
structure Exchange where
  event : Event
  outcome : Option PushOutcome
  deriving DecidableEq, Repr

/-- The block between the bytes to come and the outcomes given. `input` and `transcript` are the model's own
fields, the host's side of the interface and no registers of the block (log entries 2 and 3). -/
structure State where
  /-- The registers `LT`, `CNT`, `BUF`. -/
  block : Block
  /-- The host's next events, in the order it issues them. -/
  input : List Event
  /-- The events so far, the latest first. -/
  transcript : List Exchange
  deriving DecidableEq, Repr

/-- The block has no trap and no fault (R88): no constructor, so no step can answer a fault. -/
inductive Fault where
  deriving DecidableEq, Repr

/-- Why a step has no next state. All three that a meaning or a fetch can raise are safe: the spec defines no step
there. -/
inductive Refusal where
  /-- Raised by `exec` for an operation without a meaning (none here). Safe. -/
  | notModelled (mnemonic : String)
  /-- Raised by a meaning asked for in a state whose key does not select it (R60); `step` never asks so. Safe. -/
  | notSelected (i : Instr)
  /-- Raised by the fetch for pushes that are not serialized (R96, D15). Safe: the spec refuses them. -/
  | unserializedPushes
  /-- Raised by the fetch for a key that selects no operation (R54); no state of this type has one. Safe. -/
  | noOperation (k : Key)
  deriving DecidableEq, Repr

/-- The machine right after reset: Idle, `CNT` = 0 (R25, R26). `BUF` is the model's choice (R27, log entry 4);
the host has done nothing yet. -/
def State.reset : State :=
  { block := { sync := .idle, buf := Config.resetBuf }, input := [], transcript := [] }

end Sys2Proof.Machine
end

