-- ==== Sys2Proof/Machine/Ops.lean ====
section
/-! DEFINITION. The named operations over the block's registers: the register views, the register writes, the key
of a push, and `perform`, the one way an operation's push changes the state. The block takes no exceptions
(R88, R89): its one error is an outcome, emitted through `perform` like any other. -/

namespace Sys2Proof.Machine

/-! ### Register views -/

/-- `LT` as its 2-bit code: `NONE` is 0b00 (R11). -/
def Sync.lt : Sync → BitVec 2
  | .idle => 0b00#2
  | .accumulating t _ => t.code

/-- `CNT` as its 3-bit code (R14). -/
def Sync.cnt : Sync → BitVec 3
  | .idle => 0b000#3
  | .accumulating _ c => countCode c

/-- The register `LT`. -/
def Block.lt (blk : Block) : BitVec 2 := blk.sync.lt

/-- The register `CNT`. -/
def Block.cnt (blk : Block) : BitVec 3 := blk.sync.cnt

/-- The cell `BUF[i]`. -/
def Block.cell (blk : Block) (i : Count) : Byte := blk.buf[i.val]

/-- The phase is a function of `LT` (R12). -/
def Block.phase (blk : Block) : Phase :=
  if blk.lt = 0b00#2 then .idle else .accumulatingPayload

/-- The decode key of a push of `b` (R50). -/
def Block.key (blk : Block) (b : Byte) : Key := keyOf blk.lt blk.cnt b

/-! ### Register writes -/

/-- `LT <- NONE`, `CNT <- 0`. -/
def Block.toIdle (blk : Block) : Block := { blk with sync := .idle }

/-- `LT <- t`, `CNT <- 0` (R62, R63). -/
def Block.latch (t : PayloadType) (blk : Block) : Block := { blk with sync := .accumulating t 0 }

/-- `BUF[i] <- b` (R16). -/
def Block.store (i : Count) (b : Byte) (blk : Block) : Block := { blk with buf := blk.buf.set i.val b i.isLt }

/-- `CNT <- c + 1` with `LT` left at `t`; `PAY_APPEND` reaches it with `c` at most 4, so nothing wraps (R70, R76). -/
def Block.countUp (t : PayloadType) (c : Count) (blk : Block) : Block :=
  { blk with sync := .accumulating t (c + 1) }

/-- `RESET`: `LT <- NONE`, `CNT <- 0`, `BUF` unchanged (R100). -/
def Block.reset (blk : Block) : Block := blk.toIdle

/-! ### Events that are no push -/

/-- The reset event; it emits no outcome (R100). -/
def State.takeReset (s : State) : State :=
  { s with block := s.block.reset, transcript := ⟨.reset, none⟩ :: s.transcript }

/-- No push: every register is held and no outcome is emitted (R85). -/
def State.takeNoPush (s : State) : State :=
  { s with transcript := ⟨.noPush, none⟩ :: s.transcript }

/-! ### The effect of a push -/

/-- The position an operation's Operands name: Idle for the header family, the latched type and count for the
payload family (R61 to R65, R70, R71). -/
def Instr.site : Instr → Sync
  | .hdrReserved => .idle
  | .hdrTelemetry => .idle
  | .hdrSetAttitude => .idle
  | .hdrAttitudeAchieved => .idle
  | .hdrInvalid _ => .idle
  | .payAppend latched count _ => .accumulating latched count
  | .payFinal latched _ => .accumulating latched 5

/-- The block is where the operation's Operands say, and its byte is one the operation takes. -/
abbrev Block.Admits (blk : Block) (i : Instr) : Prop := WellFormed i ∧ blk.sync = Instr.site i

/-- `emit o` at the end of a push of `b` that leaves the registers at `blk` (R60). -/
def State.emit (b : Byte) (o : PushOutcome) (blk : Block) (s : State) : State :=
  { s with block := blk, transcript := ⟨.push b, some o⟩ :: s.transcript }

/-- The push of operation `i`: the registers become `blk` and the one outcome is `o` (R60). Where the block is not
at the position the operation's Operands name, the operation is not selected and there is no such push
(log entry 6). -/
def perform (i : Instr) (blk : Block) (o : PushOutcome) (s : State) : Host.Outcome State Fault Refusal :=
  if s.block.Admits i then .next (s.emit i.byte o blk) else .refused (.notSelected i)

end Sys2Proof.Machine
end

