-- ==== Sys2Proof/Machine/Header.lean ====
section
/-! DEFINITION. The header family: what a push does in Idle (R61 to R66). None of the five reads or writes `BUF`. -/

namespace Sys2Proof.Machine

/-- `HDR_RESERVED` (R61). -/
def execHdrReserved (s : State) : Host.Outcome State Fault Refusal :=
  perform .hdrReserved s.block.toIdle (.complete ⟨.reserved, none⟩) s

/-- `HDR_TELEMETRY` (R62). -/
def execHdrTelemetry (s : State) : Host.Outcome State Fault Refusal :=
  perform .hdrTelemetry (s.block.latch .telemetry) .cont s

/-- `HDR_SETATTITUDE` (R63). -/
def execHdrSetAttitude (s : State) : Host.Outcome State Fault Refusal :=
  perform .hdrSetAttitude (s.block.latch .setAttitude) .cont s

/-- `HDR_ATTITUDE_ACHIEVED` (R64). -/
def execHdrAttitudeAchieved (s : State) : Host.Outcome State Fault Refusal :=
  perform .hdrAttitudeAchieved s.block.toIdle (.complete ⟨.attitudeAchieved, none⟩) s

/-- `HDR_INVALID` (R65): the byte is discarded; the outcome does not record it (R81). -/
def execHdrInvalid (b : Byte) (s : State) : Host.Outcome State Fault Refusal :=
  perform (.hdrInvalid b) s.block.toIdle (.error .invalidHeader) s

end Sys2Proof.Machine
end

