-- ==== Sys2Proof/Machine/Operands.lean ====
section
/-! DEFINITION. The triplet extractor (R72 to R74): the only values assembled from several input bits (R58). -/

namespace Sys2Proof.Machine

/-- `BE16(h, l)`: the word `{h, l}` read as two's complement, as R72 computes it. -/
def be16 (h l : Byte) : Int :=
  let u : Nat := 256 * h.toNat + l.toNat
  if u ≤ 32767 then (u : Int) else (u : Int) - 65536

/-- `DECODE6` of six bytes in wire order (R73). -/
def decode6 (p0 p1 p2 p3 p4 p5 : Byte) : Triplet :=
  { x := be16 p0 p1, y := be16 p2 p3, z := be16 p4 p5 }

/-- `DECODE6` of the six cells of `BUF` (R71). -/
def Block.triplet (blk : Block) : Triplet :=
  decode6 (blk.cell 0) (blk.cell 1) (blk.cell 2) (blk.cell 3) (blk.cell 4) (blk.cell 5)

end Sys2Proof.Machine
end

