-- ==== Sys2Proof/Machine/Payload.lean ====
section
/-! DEFINITION. The payload family: what a push does in AccumulatingPayload (R70, R71). The byte is never
inspected (R49). -/

namespace Sys2Proof.Machine

/-- `PAY_APPEND` (R70): `BUF[CNT] <- b`, with `CNT` as before the push; `CNT <- CNT + 1`. -/
def execPayAppend (latched : PayloadType) (count : Count) (b : Byte) (s : State) :
    Host.Outcome State Fault Refusal :=
  perform (.payAppend latched count b) ((s.block.store count b).countUp latched count) .cont s

/-- `PAY_FINAL` (R71): the extractor reads `BUF[5]` as this push writes it. The count 6 of R71 lasts only within
the push and is not represented (C4, log entry 16). -/
def execPayFinal (latched : PayloadType) (b : Byte) (s : State) : Host.Outcome State Fault Refusal :=
  let blk := s.block.store 5 b
  perform (.payFinal latched b) blk.toIdle (.complete ⟨latched.tag, some blk.triplet⟩) s

end Sys2Proof.Machine
end

