-- ==== Sys2Proof/Machine/Dispatch.lean ====
section
/-! DEFINITION. One arm per operation of the map of R51. -/

namespace Sys2Proof.Machine

/-- The push of an operation (the case distinction of R60). -/
def exec (i : Instr) (s : State) : Host.Outcome State Fault Refusal :=
  match i with
  | .hdrReserved => Sys2Proof.Machine.execHdrReserved s
  | .hdrTelemetry => Sys2Proof.Machine.execHdrTelemetry s
  | .hdrSetAttitude => Sys2Proof.Machine.execHdrSetAttitude s
  | .hdrAttitudeAchieved => Sys2Proof.Machine.execHdrAttitudeAchieved s
  | .hdrInvalid b => Sys2Proof.Machine.execHdrInvalid b s
  | .payAppend latched count b => Sys2Proof.Machine.execPayAppend latched count b s
  | .payFinal latched b => Sys2Proof.Machine.execPayFinal latched b s

end Sys2Proof.Machine
end

