-- ==== Sys2Proof/Machine/Fetch.lean ====
section
/-! DEFINITION. Taking the host's next event: the bytes are consumed in the order delivered, each once (R31), and a
push's key selects its operation (R60). Also placing a key before the machine, for `State.withFetchWord`. -/

namespace Sys2Proof.Machine

/-- What the next event asks for. -/
inductive Fetched where
  /-- An event that is no push, already carried out. -/
  | done (s : State)
  /-- A push: the operation its key selects, and the state with the event consumed. -/
  | run (i : Instr) (s : State)
  /-- No step is defined. -/
  | stop (r : Refusal)
  deriving DecidableEq, Repr

/-- Take the next event. When the host has none, the block does nothing (R85). -/
def fetch (s : State) : Fetched :=
  match s.input with
  | [] => .done s
  | .reset :: rest => .done (State.takeReset { s with input := rest })
  | .noPush :: rest => .done (State.takeNoPush { s with input := rest })
  | .unserialized _ _ :: _ => .stop .unserializedPushes
  | .push b :: rest =>
    match decode (s.block.key b) with
    | some i => .run i { s with input := rest }
    | none => .stop (.noOperation (s.block.key b))

/-- The position a key's `LT` and `CNT` fields stand for. In Idle the map ignores `CNT` (R51, log entry 8); the codes
of R54 stand for none. -/
def syncOfKey (k : Key) : Option Sync :=
  if keyLt k = 0b00#2 then some .idle
  else
    match latchedOfCode (keyLt k), countOfCode (keyCnt k) with
    | some t, some c => some (.accumulating t c)
    | _, _ => none

/-- Put the block at the position the key holds and make its byte the next push. A key that stands for no state
(R54) cannot be placed and leaves the state as it is. -/
def State.placeKey (k : Key) (s : State) : State :=
  match syncOfKey k with
  | some p => { s with block := { s.block with sync := p }, input := .push (keyByte k) :: s.input }
  | none => s

end Sys2Proof.Machine
end

