-- ==== Sys2Proof/Machine/Step.lean ====
section
/-! DEFINITION. One step of the machine: one event of the host (D1). A push is one indivisible step (R38, R60). -/

namespace Sys2Proof.Machine

/-- One event: a push runs the operation its key selects. -/
def step (s : State) : Host.Outcome State Fault Refusal :=
  match fetch s with
  | .done t => .next t
  | .run i t => exec i t
  | .stop r => .refused r

/-- The state with the key `w` placed before the machine: `LT` and `CNT` at the key's codes, its byte the host's
next push (log entry 2). -/
def State.withFetchWord (s : State) (_nbits w : Nat) : State :=
  if w < 2 ^ 13 then s.placeKey (BitVec.ofNat 13 w) else s

end Sys2Proof.Machine
end

