-- ==== Sys2Proof/Machine/Instances.lean ====
section
/-! DEFINITION. Several instances of the block, one per stream (R93). They share no state (R44): a step is a step of
one of them. -/

namespace Sys2Proof.Machine

/-- One step of instance `k` of a bank of instances. -/
def stepAt (bank : List State) (k : Fin bank.length) : Host.Outcome (List State) Fault Refusal :=
  match step bank[k] with
  | .next t => .next (bank.set k.val t)
  | .fault f => .fault f
  | .refused r => .refused r

end Sys2Proof.Machine
end

