-- ==== Sys2Proof/Machine/Flags.lean ====
section
/-! DEFINITION. The block has no flags (R21). What it shows instead is the outcome of the current push, and this
file holds the codes the outcome ports give it (R56, R57). -/

namespace Sys2Proof.Machine

/-- The outcome ports (R56). -/
structure PinOut where
  outKind : BitVec 2
  outType : BitVec 2
  outHasPayload : Bool
  outX : BitVec 16
  outY : BitVec 16
  outZ : BitVec 16
  deriving DecidableEq, Repr

/-- `out_kind` codes (R57, D10). -/
def kindNone : BitVec 2 := 0b00#2

/-- `CONTINUE`. -/
def kindContinue : BitVec 2 := 0b01#2

/-- `COMPLETE`. -/
def kindComplete : BitVec 2 := 0b10#2

/-- `ERROR`; the one error needs no further code (R80, D12). -/
def kindError : BitVec 2 := 0b11#2

/-- The ports with no frame on them: every field but the kind is zero (R57, D11). -/
def PinOut.bare (kind : BitVec 2) : PinOut :=
  { outKind := kind, outType := 0b00#2, outHasPayload := false, outX := 0#16, outY := 0#16, outZ := 0#16 }

/-- `out_type` of a frame: its tag's header code (R57). -/
def MessageType.portCode (m : MessageType) : BitVec 2 := m.header.extractLsb' 0 2

/-- The ports for an outcome, or for a cycle without one: the table of R57. -/
def outcomePorts : Option PushOutcome → PinOut
  | none => PinOut.bare kindNone
  | some .cont => PinOut.bare kindContinue
  | some (.error _) => PinOut.bare kindError
  | some (.complete ⟨tag, none⟩) => { PinOut.bare kindComplete with outType := MessageType.portCode tag }
  | some (.complete ⟨tag, some t⟩) =>
    { outKind := kindComplete, outType := MessageType.portCode tag, outHasPayload := true,
      outX := BitVec.ofInt 16 t.x, outY := BitVec.ofInt 16 t.y, outZ := BitVec.ofInt 16 t.z }

end Sys2Proof.Machine
end

