-- ==== Sys2Proof/Machine/Pins.lean ====
section
/-! DEFINITION. The pin level (R56, R57, R104): one clock cycle's inputs as an event, the rising edge, and the
outcome ports as the combinational function of the registers and the inputs that R57 and R106 describe. The ports
are written from the registers and the pushed byte, and not from the outcome of `step`; that the two agree is a
claim. -/

namespace Sys2Proof.Machine

/-- The input ports during one clock cycle (R56). -/
structure PinIn where
  rst : Bool
  inValid : Bool
  inByte : Byte
  deriving DecidableEq, Repr

/-- What a cycle asks for: reset wins over a push, whose byte is then discarded (R87, R104). -/
def PinIn.event (p : PinIn) : Event :=
  if p.rst then .reset else if p.inValid then .push p.inByte else .noPush

/-- The cycle's rising edge (R104). -/
def clockEdge (p : PinIn) (s : State) : Host.Outcome State Fault Refusal :=
  step { s with input := p.event :: s.input }

/-- The ports for a byte read as a header (R57, R61 to R65). -/
def headerPorts (b : Byte) : PinOut :=
  if b = 0x00#8 then { PinOut.bare kindComplete with outType := 0b00#2 }
  else if b = 0x01#8 then PinOut.bare kindContinue
  else if b = 0x02#8 then PinOut.bare kindContinue
  else if b = 0x03#8 then { PinOut.bare kindComplete with outType := 0b11#2 }
  else PinOut.bare kindError

/-- The ports for the sixth payload byte: `out_type` from `LT` before the push, z low from the pushed byte and not
from the stale `BUF[5]` (R106). -/
def finalPorts (blk : Block) (b : Byte) : PinOut :=
  { outKind := kindComplete, outType := blk.lt, outHasPayload := true,
    outX := blk.cell 0 ++ blk.cell 1, outY := blk.cell 2 ++ blk.cell 3, outZ := blk.cell 4 ++ b }

/-- The outcome ports in the cycle of a push, `OUT_LATENCY` = 0 (R57, D9). -/
def pinOutputs (blk : Block) (p : PinIn) : PinOut :=
  if p.rst || !p.inValid then PinOut.bare kindNone
  else if blk.lt = 0b00#2 then headerPorts p.inByte
  else if blk.cnt = 0b101#3 then finalPorts blk p.inByte
  else PinOut.bare kindContinue

end Sys2Proof.Machine
end

