-- ==== Sys2Proof/Machine/Stream.lean ====
section
/-! DEFINITION. Byte streams: what the host writes (R59), what it reads back, and several steps in a row. -/

namespace Sys2Proof.Machine

/-- The frame macros of R59. -/
inductive FrameMacro where
  | rsv
  | tel (x y z : Int)
  | set (x y z : Int)
  | ach
  deriving DecidableEq, Repr

/-- What a byte stream is written with: a frame macro, or a byte outside any macro (R59). -/
inductive StreamItem where
  | frame (m : FrameMacro)
  | byte (b : Byte)
  deriving DecidableEq, Repr

/-- An axis value as 16-bit two's complement, high byte first (R59, R32). -/
def axisBytes (v : Int) : List Byte :=
  [(BitVec.ofInt 16 v).extractLsb' 8 8, (BitVec.ofInt 16 v).extractLsb' 0 8]

/-- The expansion of a macro, in push order (R59). -/
def FrameMacro.bytes : FrameMacro → List Byte
  | .rsv => [MessageType.reserved.header]
  | .tel x y z => MessageType.telemetry.header :: (axisBytes x ++ axisBytes y ++ axisBytes z)
  | .set x y z => MessageType.setAttitude.header :: (axisBytes x ++ axisBytes y ++ axisBytes z)
  | .ach => [MessageType.attitudeAchieved.header]

/-- The bytes of a stream item (R59). -/
def StreamItem.bytes : StreamItem → List Byte
  | .frame m => m.bytes
  | .byte b => [b]

/-- The frame a macro stands for. -/
def FrameMacro.frame : FrameMacro → Frame
  | .rsv => ⟨.reserved, none⟩
  | .tel x y z => ⟨.telemetry, some ⟨x, y, z⟩⟩
  | .set x y z => ⟨.setAttitude, some ⟨x, y, z⟩⟩
  | .ach => ⟨.attitudeAchieved, none⟩

/-- A signed 16-bit value (R8). -/
abbrev AxisRange (v : Int) : Prop := -32768 ≤ v ∧ v ≤ 32767

/-- The axes of a macro are signed 16-bit values. -/
def FrameMacro.InRange : FrameMacro → Prop
  | .rsv => True
  | .tel x y z => AxisRange x ∧ AxisRange y ∧ AxisRange z
  | .set x y z => AxisRange x ∧ AxisRange y ∧ AxisRange z
  | .ach => True

/-- The outcomes of a whole frame: one for each byte, `Continue` for all but the last (R75). -/
def FrameMacro.outcomes (m : FrameMacro) : List PushOutcome :=
  List.replicate (m.frame.tag.frameLength - 1) .cont ++ [.complete m.frame]

/-- The pushes that deliver a byte list, in order. -/
def pushes (bs : List Byte) : List Event := bs.map .push

/-- The outcomes the host was given, in the order they were emitted (R24, R97). -/
def State.outcomes (s : State) : List PushOutcome := (s.transcript.filterMap (·.outcome)).reverse

/-- Several steps in a row, as the host's interface counts them. -/
def run (n : Nat) (s : State) : Host.Outcome State Fault Refusal := Host.Core.run Sys2Proof.core n s

end Sys2Proof.Machine
end

