-- ==== Sys2Proof/Safety.lean ====
section
/-! DEFINITION. What a good state is, in the terms the claims use: the invariant INV of R18 with its history clause,
the frames that may be emitted (R55), the duty of the host (R96), and the states that no outcome can tell apart
(R17). -/

namespace Sys2Proof.Machine

/-- The bytes of the frame that is open after these exchanges (the latest first), header first: a pushed byte
answered `Continue` belongs to it; `Complete`, `Error` and reset end it (R24, R101, R108). -/
def openFrame : List Exchange → List Byte
  | [] => []
  | ⟨.push b, some .cont⟩ :: earlier => openFrame earlier ++ [b]
  | ⟨.push _, some (.complete _)⟩ :: _ => []
  | ⟨.push _, some (.error _)⟩ :: _ => []
  | ⟨.reset, _⟩ :: _ => []
  | ⟨.push _, none⟩ :: earlier => openFrame earlier
  | ⟨.noPush, _⟩ :: earlier => openFrame earlier
  | ⟨.unserialized _ _, _⟩ :: earlier => openFrame earlier

/-- INV (R18), read against an open frame: with none, `LT = NONE` and `CNT = 0`; with one, `LT` is its header's
type, `CNT` counts its payload bytes, and `BUF[0 .. CNT-1]` hold them in arrival order. -/
def Block.Holds (blk : Block) : List Byte → Prop
  | [] => blk.lt = 0b00#2 ∧ blk.cnt = 0b000#3
  | h :: payload =>
    (h = 0x01#8 ∧ blk.lt = 0b01#2 ∨ h = 0x02#8 ∧ blk.lt = 0b10#2) ∧
      blk.cnt.toNat = payload.length ∧ payload.length ≤ 5 ∧
      ∀ i : Count, i.val < payload.length → payload[i.val]? = some (blk.cell i)

/-- INV (R18) of a state: the registers hold the frame its transcript left open. -/
def State.Inv (s : State) : Prop := s.block.Holds (openFrame s.transcript)

/-- A frame has a payload exactly where its tag requires one (R55), and its axes are signed 16-bit values (R8). -/
def Frame.Proper (f : Frame) : Prop :=
  match f.tag, f.payload with
  | .reserved, none => True
  | .attitudeAchieved, none => True
  | .telemetry, some t => AxisRange t.x ∧ AxisRange t.y ∧ AxisRange t.z
  | .setAttitude, some t => AxisRange t.x ∧ AxisRange t.y ∧ AxisRange t.z
  | _, _ => False

/-- The host serializes its pushes (R40, R96): no event to come is an unserialized one. -/
def State.Serialized (s : State) : Prop := ∀ b c : Byte, Event.unserialized b c ∉ s.input

/-- Two states that differ at most in cells of `BUF` at or above `CNT`: what an earlier frame, or the time before
reset, left behind (R17). -/
def State.SameButStale (s t : State) : Prop :=
  s.block.sync = t.block.sync ∧ s.input = t.input ∧ s.transcript = t.transcript ∧
    ∀ i : Count, i.val < s.block.cnt.toNat → s.block.cell i = t.block.cell i

end Sys2Proof.Machine
end

