-- ==== Sys2Proof/Certificates/Slice0/Obligations.lean ====
section
/-! DEFINITION. The statements for the provers. Registers are named as the spec names them: `lt` is `LT`, `cnt` is
`CNT`, `cell i` is `BUF[i]`. Where a statement speaks of `input` or `transcript`, it speaks of the host's side of the
interface (log entries 2 and 3): the pushes to come and the outcomes given. -/

open Sys2Proof Sys2Proof.Machine

/-! ### The operations, one by one: which pushes select them, and what they do -/

/-- R61. Selected exactly by 0x00 in Idle; the frame Reserved, and the state it found. -/
def Obligations.HdrReservedCompletesItsFrame : Prop :=
  (∀ (blk : Block) (b : Byte), decode (blk.key b) = some .hdrReserved ↔ blk.lt = 0b00#2 ∧ b = 0x00#8) ∧
  ∀ s : State, s.block.lt = 0b00#2 →
    ∃ t : State, exec .hdrReserved s = .next t ∧
      t.block.lt = 0b00#2 ∧ t.block.cnt = 0b000#3 ∧ t.block.buf = s.block.buf ∧ t.block = s.block ∧
      t.input = s.input ∧
      t.transcript = ⟨.push 0x00#8, some (.complete ⟨.reserved, none⟩)⟩ :: s.transcript

/-- R62. Selected exactly by 0x01 in Idle; `LT <- TELEMETRY`, `CNT <- 0`, `Continue`; the next push is payload whatever
its value. -/
def Obligations.HdrTelemetryLatchesTelemetry : Prop :=
  (∀ (blk : Block) (b : Byte), decode (blk.key b) = some .hdrTelemetry ↔ blk.lt = 0b00#2 ∧ b = 0x01#8) ∧
  ∀ s : State, s.block.lt = 0b00#2 →
    ∃ t : State, exec .hdrTelemetry s = .next t ∧
      t.block.lt = 0b01#2 ∧ t.block.cnt = 0b000#3 ∧ t.block.buf = s.block.buf ∧
      t.input = s.input ∧ t.transcript = ⟨.push 0x01#8, some .cont⟩ :: s.transcript ∧
      ∀ b : Byte, decode (t.block.key b) = some (.payAppend .telemetry 0 b)

/-- R63. Selected exactly by 0x02 in Idle; `LT <- SETATTITUDE`, `CNT <- 0`, `Continue`; the next push is payload whatever
its value. -/
def Obligations.HdrSetAttitudeLatchesSetAttitude : Prop :=
  (∀ (blk : Block) (b : Byte), decode (blk.key b) = some .hdrSetAttitude ↔ blk.lt = 0b00#2 ∧ b = 0x02#8) ∧
  ∀ s : State, s.block.lt = 0b00#2 →
    ∃ t : State, exec .hdrSetAttitude s = .next t ∧
      t.block.lt = 0b10#2 ∧ t.block.cnt = 0b000#3 ∧ t.block.buf = s.block.buf ∧
      t.input = s.input ∧ t.transcript = ⟨.push 0x02#8, some .cont⟩ :: s.transcript ∧
      ∀ b : Byte, decode (t.block.key b) = some (.payAppend .setAttitude 0 b)

/-- R64. Selected exactly by 0x03 in Idle, whatever frames came before; the frame AttitudeAchieved. -/
def Obligations.HdrAttitudeAchievedCompletesItsFrame : Prop :=
  (∀ (blk : Block) (b : Byte), decode (blk.key b) = some .hdrAttitudeAchieved ↔ blk.lt = 0b00#2 ∧ b = 0x03#8) ∧
  ∀ s : State, s.block.lt = 0b00#2 →
    ∃ t : State, exec .hdrAttitudeAchieved s = .next t ∧
      t.block.lt = 0b00#2 ∧ t.block.cnt = 0b000#3 ∧ t.block.buf = s.block.buf ∧
      t.input = s.input ∧
      t.transcript = ⟨.push 0x03#8, some (.complete ⟨.attitudeAchieved, none⟩)⟩ :: s.transcript

/-- R65. Selected exactly by 0x04 to 0xFF in Idle; one error, the byte discarded, and the state it found. -/
def Obligations.HdrInvalidReportsOneError : Prop :=
  (∀ (blk : Block) (b c : Byte),
    decode (blk.key b) = some (.hdrInvalid c) ↔ blk.lt = 0b00#2 ∧ 4 ≤ b.toNat ∧ c = b) ∧
  ∀ (s : State) (b : Byte), s.block.lt = 0b00#2 → 4 ≤ b.toNat →
    ∃ t : State, exec (.hdrInvalid b) s = .next t ∧
      t.block.lt = 0b00#2 ∧ t.block.cnt = 0b000#3 ∧ t.block.buf = s.block.buf ∧ t.block = s.block ∧
      t.input = s.input ∧ t.transcript = ⟨.push b, some (.error .invalidHeader)⟩ :: s.transcript

/-- R70. Selected exactly with a type latched and `CNT` 0 to 4, whatever the byte; the byte goes to `BUF[CNT]`, `CNT`
rises by one and nothing else changes. -/
def Obligations.PayAppendStoresOneByte : Prop :=
  (∀ (blk : Block) (p : PayloadType) (k : Count) (b c : Byte),
    decode (blk.key b) = some (.payAppend p k c) ↔
      blk.lt = p.code ∧ blk.cnt = countCode k ∧ k.val ≤ 4 ∧ c = b) ∧
  ∀ (s : State) (p : PayloadType) (k : Count) (b : Byte),
    s.block.lt = p.code → s.block.cnt = countCode k → k.val ≤ 4 →
    ∃ t : State, exec (.payAppend p k b) s = .next t ∧
      t.block.lt = s.block.lt ∧ t.block.cnt = s.block.cnt + 1#3 ∧ t.block.cnt.toNat = k.val + 1 ∧
      t.block.cell k = b ∧ (∀ i : Count, i ≠ k → t.block.cell i = s.block.cell i) ∧
      t.input = s.input ∧ t.transcript = ⟨.push b, some .cont⟩ :: s.transcript

/-- R71. Selected exactly with a type latched and `CNT` = 5, whatever the byte; `BUF[5] <- b`, the triplet of the six
bytes with `b` as the last, the latched type's tag, and back to Idle with `BUF` kept. -/
def Obligations.PayFinalCompletesTheFrame : Prop :=
  (∀ (blk : Block) (p : PayloadType) (b c : Byte),
    decode (blk.key b) = some (.payFinal p c) ↔ blk.lt = p.code ∧ blk.cnt = 0b101#3 ∧ c = b) ∧
  ∀ (s : State) (p : PayloadType) (b : Byte), s.block.lt = p.code → s.block.cnt = 0b101#3 →
    ∃ t : State, exec (.payFinal p b) s = .next t ∧
      t.block.lt = 0b00#2 ∧ t.block.cnt = 0b000#3 ∧
      t.block.cell 5 = b ∧ (∀ i : Count, i ≠ 5 → t.block.cell i = s.block.cell i) ∧
      t.input = s.input ∧
      t.transcript = ⟨.push b, some (.complete ⟨p.tag, some (decode6 (s.block.cell 0) (s.block.cell 1)
        (s.block.cell 2) (s.block.cell 3) (s.block.cell 4) b)⟩)⟩ :: s.transcript

/-! ### Frames and whole-family rules -/

/-- R66, first sentence: the header family leaves `BUF` alone, and the host's coming events with it. -/
def Obligations.HeaderFamilyLeavesBufAlone : Prop :=
  ∀ (i : Instr) (s t : State), Instr.site i = .idle → exec i s = .next t →
    t.block.buf = s.block.buf ∧ t.input = s.input

/-- R66: the outcome and the next `LT` and `CNT` of a push in Idle depend on the byte alone. -/
def Obligations.IdlePushDependsOnTheByteAlone : Prop :=
  ∀ (s s' t t' : State) (b : Byte) (rest rest' : List Event),
    s.block.lt = 0b00#2 → s'.block.lt = 0b00#2 →
    s.input = .push b :: rest → s'.input = .push b :: rest' →
    step s = .next t → step s' = .next t' →
    t.block.lt = t'.block.lt ∧ t.block.cnt = t'.block.cnt ∧
      t.block.buf = s.block.buf ∧ t'.block.buf = s'.block.buf ∧
      ∃ o : PushOutcome, t.transcript = ⟨.push b, some o⟩ :: s.transcript ∧
        t'.transcript = ⟨.push b, some o⟩ :: s'.transcript

/-- R16: a step writes no cell of `BUF` but `BUF[CNT]`, only on a push in AccumulatingPayload, and then with the
pushed byte; reset and the header family write none. -/
def Obligations.StepWritesAtMostTheCellAtCount : Prop :=
  ∀ (s t : State) (i : Count), step s = .next t →
    (t.block.cell i = s.block.cell i ∨
      ∃ (b : Byte) (rest : List Event), s.input = .push b :: rest ∧ s.block.lt ≠ 0b00#2 ∧
        s.block.cnt = countCode i ∧ t.block.cell i = b) ∧
    ∀ (b : Byte) (rest : List Event), s.input = .push b :: rest → s.block.lt ≠ 0b00#2 →
      s.block.cnt = countCode i → t.block.cell i = b

/-- Derived from R13 and R15: what each operation leaves in `LT` and `CNT`, and what reset leaves. The last clause says
only that a step keeps a latched type or clears it; that it clears it by nothing but reset or the sixth byte is
PayloadEndsOnlyBySixthByteOrReset and NoPushHoldsTheState. -/
def Obligations.WritersOfLatchedTypeAndCount : Prop :=
  (∀ (i : Instr) (s t : State), exec i s = .next t →
    match i with
    | .hdrReserved => s.block.lt = 0b00#2 ∧ t.block.lt = 0b00#2 ∧ t.block.cnt = 0b000#3
    | .hdrTelemetry => t.block.lt = 0b01#2 ∧ t.block.cnt = 0b000#3
    | .hdrSetAttitude => t.block.lt = 0b10#2 ∧ t.block.cnt = 0b000#3
    | .hdrAttitudeAchieved => s.block.lt = 0b00#2 ∧ t.block.lt = 0b00#2 ∧ t.block.cnt = 0b000#3
    | .hdrInvalid _ => s.block.lt = 0b00#2 ∧ t.block.lt = 0b00#2 ∧ t.block.cnt = 0b000#3
    | .payAppend _ _ _ => t.block.lt = s.block.lt ∧ t.block.cnt = s.block.cnt + 1#3
    | .payFinal _ _ => t.block.lt = 0b00#2 ∧ t.block.cnt = 0b000#3) ∧
  (∀ s : State, s.takeReset.block.lt = 0b00#2 ∧ s.takeReset.block.cnt = 0b000#3) ∧
  ∀ s t : State, step s = .next t → s.block.lt ≠ 0b00#2 → t.block.lt = s.block.lt ∨ t.block.lt = 0b00#2

/-- R49: in AccumulatingPayload every byte is data: it goes to `BUF[CNT]`, and whether the frame goes on or ends
depends on `CNT` alone. -/
def Obligations.PayloadBytesAreData : Prop :=
  ∀ (s : State) (k : Count) (b : Byte) (rest : List Event), s.input = .push b :: rest →
    s.block.lt ≠ 0b00#2 → s.block.cnt = countCode k →
    ∃ (t : State) (o : PushOutcome), step s = .next t ∧ t.block.cell k = b ∧
      t.transcript = ⟨.push b, some o⟩ :: s.transcript ∧
      if k = 5 then t.block.lt = 0b00#2 ∧ ∃ f : Frame, o = .complete f
      else t.block.lt = s.block.lt ∧ t.block.cnt = countCode (k + 1) ∧ o = .cont

/-- R81, R82, R83: an error comes from a byte 0x04 to 0xFF in Idle and from nothing else; it leaves Idle with
`CNT` = 0. -/
def Obligations.ErrorExactlyForABadHeader : Prop :=
  ∀ (s t : State) (b : Byte) (rest : List Event), s.input = .push b :: rest → step s = .next t →
    (t.transcript = ⟨.push b, some (.error .invalidHeader)⟩ :: s.transcript ↔
      s.block.lt = 0b00#2 ∧ 4 ≤ b.toNat) ∧
    (t.transcript = ⟨.push b, some (.error .invalidHeader)⟩ :: s.transcript →
      t.block.lt = 0b00#2 ∧ t.block.cnt = 0b000#3 ∧ t.block.buf = s.block.buf)

/-- R24, R108: after `Continue` the block is in AccumulatingPayload, after `Complete`, `Error` or reset in Idle. -/
def Obligations.OutcomeTellsThePhase : Prop :=
  (∀ (s t : State) (b : Byte) (rest : List Event), s.input = .push b :: rest → step s = .next t →
    ∃ o : PushOutcome, t.transcript = ⟨.push b, some o⟩ :: s.transcript ∧
      (o = .cont ↔ t.block.phase = .accumulatingPayload) ∧ (o ≠ .cont ↔ t.block.phase = .idle)) ∧
  ∀ (s t : State) (rest : List Event), s.input = .reset :: rest → step s = .next t → t.block.phase = .idle

/-- R101: a step leaves AccumulatingPayload only by reset or by the sixth payload byte. -/
def Obligations.PayloadEndsOnlyBySixthByteOrReset : Prop :=
  ∀ s t : State, step s = .next t → s.block.phase = .accumulatingPayload → t.block.phase = .idle →
    (∃ rest : List Event, s.input = .reset :: rest ∧ t.transcript = ⟨.reset, none⟩ :: s.transcript) ∨
    ∃ (b : Byte) (rest : List Event) (f : Frame), s.input = .push b :: rest ∧ s.block.cnt = 0b101#3 ∧
      t.transcript = ⟨.push b, some (.complete f)⟩ :: s.transcript

/-- R55, R8: an emitted frame has a payload exactly where its tag requires one, with axes in the signed 16-bit
range. -/
def Obligations.EmittedFramesAreProper : Prop :=
  ∀ (s t : State) (b : Byte) (rest : List Event) (f : Frame), s.input = .push b :: rest → step s = .next t →
    t.transcript = ⟨.push b, some (.complete f)⟩ :: s.transcript → f.Proper

/-! ### The step -/

/-- A push runs the operation its key decodes to, on the state with the byte consumed (R31, R60). -/
def Obligations.StepRunsTheDecodedOperation : Prop :=
  ∀ (s : State) (b : Byte) (rest : List Event) (i : Instr), s.input = .push b :: rest →
    decode (s.block.key b) = some i → WellFormed i → step s = exec i { s with input := rest }

/-- R60: exec goes on exactly where the key of the operation's byte selects it, and otherwise refuses by name. The
refusal is the model's choice (log entry 6). -/
def Obligations.ExecCompletesExactlyWhereSelected : Prop :=
  ∀ (i : Instr) (s : State),
    ((∃ t : State, exec i s = .next t) ↔ decode (s.block.key i.byte) = some i) ∧
    (decode (s.block.key i.byte) ≠ some i → exec i s = .refused (.notSelected i))

/-- R45: every byte in every state of the block gives a next state and exactly one outcome, in Idle
`Error(InvalidHeader)` where the byte is no message type. -/
def Obligations.EveryPushGivesOneOutcome : Prop :=
  ∀ (s : State) (b : Byte) (rest : List Event), s.input = .push b :: rest →
    ∃ (t : State) (o : PushOutcome), step s = .next t ∧ t.input = rest ∧
      t.transcript = ⟨.push b, some o⟩ :: s.transcript ∧
      (s.block.lt = 0b00#2 → 4 ≤ b.toNat → o = .error .invalidHeader)

/-- R31, R40: each event is consumed once, in the order issued. Two clauses are the model's choice and not those rules':
that the event is recorded once in the transcript (log entry 3, DESIGN CHOICE), and that with no event to come a step
leaves the state as it is (log entry 10, DEDUCED from R85 and C3). -/
def Obligations.EventsAreConsumedOnceInOrder : Prop :=
  ∀ s t : State, step s = .next t →
    (s.input = [] ∧ t = s) ∨
    ∃ (e : Event) (o : Option PushOutcome), s.input = e :: t.input ∧ t.transcript = ⟨e, o⟩ :: s.transcript

/-- R96, D15: the one thing the machine refuses is pushes that are not serialized. -/
def Obligations.OnlyUnserializedPushesAreRefused : Prop :=
  ∀ (s : State) (r : Refusal), step s = .refused r ↔
    r = .unserializedPushes ∧ ∃ (b c : Byte) (rest : List Event), s.input = .unserialized b c :: rest

/-- A host that serializes its pushes always gets a next state, and is left serialized (R96, R97). -/
def Obligations.SerializedHostAlwaysGoesOn : Prop :=
  ∀ s : State, s.Serialized → ∃ t : State, step s = .next t ∧ t.Serialized

/-- R100: reset writes `LT <- NONE` and `CNT <- 0`, leaves `BUF`, and emits no outcome. -/
def Obligations.ResetEventClearsTypeAndCount : Prop :=
  ∀ (s : State) (rest : List Event), s.input = .reset :: rest →
    ∃ t : State, step s = .next t ∧ t.block.lt = 0b00#2 ∧ t.block.cnt = 0b000#3 ∧ t.block.phase = .idle ∧
      t.block.buf = s.block.buf ∧ t.input = rest ∧ t.transcript = ⟨.reset, none⟩ :: s.transcript

/-- R85: with no push the block keeps its registers and emits no outcome; the ports show NONE. -/
def Obligations.NoPushHoldsTheState : Prop :=
  (∀ s : State, s.input = [] → step s = .next s) ∧
  (∀ (s : State) (rest : List Event), s.input = .noPush :: rest →
    ∃ t : State, step s = .next t ∧ t.block = s.block ∧ t.input = rest ∧
      t.transcript = ⟨.noPush, none⟩ :: s.transcript) ∧
  ∀ (blk : Block) (r : Bool) (b : Byte), (pinOutputs blk ⟨r, false, b⟩).outKind = 0b00#2

/-- R25, R26: right after reset `LT` = NONE, the phase is Idle and `CNT` = 0. -/
def Obligations.ResetStateIsIdle : Prop :=
  State.reset.block.lt = 0b00#2 ∧ State.reset.block.phase = .idle ∧ State.reset.block.cnt = 0b000#3

/-- The model's own part of the reset state (log entries 2, 3 and 4): `BUF` is zero, which the spec leaves open
(R27), and the host has done nothing. -/
def Obligations.ResetStateModelChoices : Prop :=
  (∀ i : Count, State.reset.block.cell i = 0x00#8) ∧ State.reset.input = [] ∧ State.reset.transcript = []

/-! ### Invariants -/

/-- R18, R14, R11: the codes the registers can hold at all. -/
def Obligations.RegisterCodesAreLegal : Prop :=
  ∀ blk : Block, (blk.lt = 0b00#2 ∧ blk.cnt = 0b000#3) ∨
    ((blk.lt = 0b01#2 ∨ blk.lt = 0b10#2) ∧ blk.cnt.toNat ≤ 5)

/-- Reset establishes INV (R18). -/
def Obligations.InvHoldsAtReset : Prop := State.reset.Inv

/-- Every step preserves INV (R18): `LT` and `CNT` are those of the open frame, and `BUF[0 .. CNT-1]` hold its payload
bytes in arrival order. -/
def Obligations.EveryStepKeepsInv : Prop :=
  ∀ s t : State, s.Inv → step s = .next t → t.Inv

/-- R18: everything INV admits is reached. Every position and every content of `BUF` is reached from reset by pushing
bytes. -/
def Obligations.EveryBlockStateIsReachable : Prop :=
  ∀ blk : Block, ∃ (bs : List Byte) (t : State),
    run bs.length { State.reset with input := pushes bs } = .next t ∧ t.block = blk

/-! ### What can not be observed -/

/-- R17, R27: states that differ only in stale cells of `BUF` step to states that differ only in stale cells, and
have been given the same outcomes. -/
def Obligations.StaleCellsNeverMatterToAStep : Prop :=
  ∀ s s' t : State, s.SameButStale s' → step s = .next t →
    ∃ t' : State, step s' = .next t' ∧ t.SameButStale t'

/-- R17, R27: over any number of steps, stale content of `BUF` never reaches an outcome. -/
def Obligations.StaleCellsNeverReachAnOutcome : Prop :=
  ∀ (n : Nat) (s s' t : State), s.SameButStale s' → run n s = .next t →
    ∃ t' : State, run n s' = .next t' ∧ t.outcomes = t'.outcomes

/-- R84, R102: from Idle, however it was reached (reset, a complete frame, an error), the outcomes to come are those
a block just reset gives for the same events. -/
def Obligations.IdleForgetsThePast : Prop :=
  ∀ (n : Nat) (s t : State), s.block.lt = 0b00#2 → run n s = .next t →
    ∃ u : State, run n { State.reset with input := s.input } = .next u ∧
      t.outcomes = s.outcomes ++ u.outcomes

/-- R85, R91, R109: pauses without a push change neither the registers at the end nor any outcome. -/
def Obligations.PausesChangeNothing : Prop :=
  ∀ s t : State, run s.input.length s = .next t →
    ∃ u : State, run (s.input.filter (· ≠ .noPush)).length { s with input := s.input.filter (· ≠ .noPush) } = .next u ∧
      u.block = t.block ∧ u.outcomes = t.outcomes

/-- R91, R95: with no events to come the state is held for any number of steps. -/
def Obligations.StalledFrameIsHeld : Prop :=
  ∀ (n : Nat) (s : State), s.input = [] → run n s = .next s

/-! ### Whole frames -/

/-- R75: a Telemetry or SetAttitude frame gives six `Continue` and then one `Complete` with `DECODE6` of its six payload
bytes; the bytes stay in `BUF` in wire order (R33). -/
def Obligations.PayloadFrameGivesSevenOutcomes : Prop :=
  ∀ (s : State) (p : PayloadType) (p0 p1 p2 p3 p4 p5 : Byte) (rest : List Event), s.block.lt = 0b00#2 →
    s.input = pushes [p.tag.header, p0, p1, p2, p3, p4, p5] ++ rest →
    ∃ t : State, run 7 s = .next t ∧
      t.outcomes = s.outcomes ++ [.cont, .cont, .cont, .cont, .cont, .cont,
        .complete ⟨p.tag, some (decode6 p0 p1 p2 p3 p4 p5)⟩] ∧
      t.block.lt = 0b00#2 ∧ t.block.cnt = 0b000#3 ∧ t.block.buf = #v[p0, p1, p2, p3, p4, p5] ∧ t.input = rest

/-- Any sequence of frames, written as R59 writes them and pushed from Idle, is decoded to exactly those frames, each
frame's outcomes in turn, with no reset between them (R75, R102). -/
def Obligations.StreamOfFramesIsDecoded : Prop :=
  ∀ (ms : List FrameMacro) (s : State) (rest : List Event), s.block.lt = 0b00#2 → (∀ m ∈ ms, m.InRange) →
    s.input = pushes (ms.flatMap FrameMacro.bytes) ++ rest →
    ∃ t : State, run (ms.flatMap FrameMacro.bytes).length s = .next t ∧
      t.outcomes = s.outcomes ++ ms.flatMap FrameMacro.outcomes ∧ t.block.lt = 0b00#2 ∧ t.input = rest

/-! ### The triplet extractor -/

/-- R72: the sum of R72 is the 16-bit word `{h, l}` read as two's complement, in the signed range. -/
def Obligations.BE16IsTheSignedWord : Prop :=
  ∀ h l : Byte, be16 h l = (h ++ l).toInt ∧ AxisRange (be16 h l) ∧
    be16 h l = if h.toNat < 128 then 256 * (h.toNat : Int) + l.toNat else 256 * (h.toNat : Int) + l.toNat - 65536

/-- R73, R74: the axes of DECODE6; BE16 is a bijection from byte pairs onto the signed 16-bit values, and DECODE6 one from
six bytes onto their triplets. -/
def Obligations.Decode6IsABijection : Prop :=
  (∀ p0 p1 p2 p3 p4 p5 : Byte, decode6 p0 p1 p2 p3 p4 p5 = ⟨be16 p0 p1, be16 p2 p3, be16 p4 p5⟩ ∧
    AxisRange (be16 p0 p1) ∧ AxisRange (be16 p2 p3) ∧ AxisRange (be16 p4 p5)) ∧
  (∀ v : Int, AxisRange v → ∃! p : Byte × Byte, be16 p.1 p.2 = v) ∧
  ∀ x y z : Int, AxisRange x → AxisRange y → AxisRange z →
    ∃! v : Vector Byte 6, decode6 v[0] v[1] v[2] v[3] v[4] v[5] = ⟨x, y, z⟩

/-! ### Encoding -/

/-- The keys of the source's worked examples (95_test_vectors.md L1-1 to L1-5) decode to the operations given there. -/
def Obligations.WorkedExampleKeysDecode : Prop :=
  decode 0x0000#13 = some .hdrReserved ∧ decode 0x0001#13 = some .hdrTelemetry ∧
  decode 0x0002#13 = some .hdrSetAttitude ∧ decode 0x0003#13 = some .hdrAttitudeAchieved ∧
  decode 0x0004#13 = some (.hdrInvalid 0x04#8) ∧
  decode 0x0812#13 = some (.payAppend .telemetry 0 0x12#8) ∧
  decode 0x0C9A#13 = some (.payAppend .telemetry 4 0x9A#8) ∧
  decode 0x0DBC#13 = some (.payFinal .telemetry 0xBC#8) ∧
  decode 0x1378#13 = some (.payAppend .setAttitude 3 0x78#8) ∧
  decode 0x15BC#13 = some (.payFinal .setAttitude 0xBC#8)

/-- Every operation's key decodes to that operation, with every operand at every value. -/
def Obligations.EncodedOperationsDecodeBack : Prop :=
  ∀ i : Instr, WellFormed i → decode (encode i) = some i

/-- The other direction: what a key decodes to is well formed and encodes to that key, with `CNT` as 0 in Idle, where
the map ignores it (R51). -/
def Obligations.DecodedKeysEncodeBack : Prop :=
  ∀ (k : Key) (i : Instr), decode k = some i →
    WellFormed i ∧
      encode i = if keyLt k = 0b00#2 then keyOf (keyLt k) 0b000#3 (keyByte k) else k

/-- R51, R54: at most one row of the map matches a key; one does exactly for `LT` = 0b00 whatever the `CNT` bits, the
don't-care of the Idle rows, and for a latched type with `CNT` at most 5. That keys with `LT` = 0b00 and `CNT` from 1 to
7, which no state has, match too is log entry 8's reading of R54 (DEDUCED). -/
def Obligations.OperationMapIsDisjointAndComplete : Prop :=
  (∀ k : Key, (opcodeRows.filter (·.selects k)).length =
    if keyLt k = 0b00#2 ∨ ((keyLt k = 0b01#2 ∨ keyLt k = 0b10#2) ∧ (keyCnt k).toNat ≤ 5) then 1 else 0) ∧
  (∀ k : Key, decode k = none ↔ opcodeRows.filter (·.selects k) = []) ∧
  ∀ (blk : Block) (b : Byte), ∃ i : Instr, decode (blk.key b) = some i

/-- A key placed before the machine is what the next step runs (log entry 2). -/
def Obligations.PlacedKeyRunsNext : Prop :=
  ∀ (s : State) (n w : Nat) (i : Instr), decodeTableWord n w = some i →
    step (s.withFetchWord n w) = exec i { s with block := { s.block with sync := Instr.site i } } ∧
      ∃ t : State, step (s.withFetchWord n w) = .next t

/-! ### The pin level -/

/-- R57: the port values of each outcome. -/
def Obligations.OutcomePortsFollowTheTable : Prop :=
  outcomePorts none = ⟨0b00#2, 0b00#2, false, 0#16, 0#16, 0#16⟩ ∧
  outcomePorts (some .cont) = ⟨0b01#2, 0b00#2, false, 0#16, 0#16, 0#16⟩ ∧
  outcomePorts (some (.complete ⟨.reserved, none⟩)) = ⟨0b10#2, 0b00#2, false, 0#16, 0#16, 0#16⟩ ∧
  (∀ x y z : Int, outcomePorts (some (.complete ⟨.telemetry, some ⟨x, y, z⟩⟩)) =
    ⟨0b10#2, 0b01#2, true, BitVec.ofInt 16 x, BitVec.ofInt 16 y, BitVec.ofInt 16 z⟩) ∧
  (∀ x y z : Int, outcomePorts (some (.complete ⟨.setAttitude, some ⟨x, y, z⟩⟩)) =
    ⟨0b10#2, 0b10#2, true, BitVec.ofInt 16 x, BitVec.ofInt 16 y, BitVec.ofInt 16 z⟩) ∧
  outcomePorts (some (.complete ⟨.attitudeAchieved, none⟩)) = ⟨0b10#2, 0b11#2, false, 0#16, 0#16, 0#16⟩ ∧
  outcomePorts (some (.error .invalidHeader)) = ⟨0b11#2, 0b00#2, false, 0#16, 0#16, 0#16⟩ ∧
  ∀ (blk : Block) (p : PinIn), p.rst = true ∨ p.inValid = false → pinOutputs blk p = outcomePorts none

/-- R57, R104, R106: in every cycle the outcome ports, computed from the registers and the inputs, show the outcome
of that cycle's push, or NONE where there is none. The pin level is a layer over the step (log entry 9, DEDUCED). -/
def Obligations.PortsShowTheOutcome : Prop :=
  ∀ (s : State) (p : PinIn), ∃ (t : State) (o : Option PushOutcome), clockEdge p s = .next t ∧
    t.input = s.input ∧ t.transcript = ⟨p.event, o⟩ :: s.transcript ∧
    pinOutputs s.block p = outcomePorts o

/-- R104: what a rising edge does, by `rst` and `in_valid`; reset wins and discards the byte (R87). -/
def Obligations.ClockEdgeFollowsResetThenPush : Prop :=
  (∀ (s : State) (v : Bool) (b : Byte), ∃ t : State, clockEdge ⟨true, v, b⟩ s = .next t ∧
    t.block.lt = 0b00#2 ∧ t.block.cnt = 0b000#3 ∧ t.block.buf = s.block.buf ∧
    t.transcript = ⟨.reset, none⟩ :: s.transcript ∧ pinOutputs s.block ⟨true, v, b⟩ = outcomePorts none) ∧
  (∀ (s : State) (b : Byte), clockEdge ⟨false, true, b⟩ s = step { s with input := .push b :: s.input }) ∧
  ∀ (s : State) (b : Byte), ∃ t : State, clockEdge ⟨false, false, b⟩ s = .next t ∧ t.block = s.block ∧
    t.transcript = ⟨.noPush, none⟩ :: s.transcript

/-! ### Several instances -/

/-- After R44: a step of one instance steps that instance and changes no other. The bank and `stepAt`, a list of states
of which one steps, are the model's choice (log entry 12, DESIGN CHOICE), and the independence rests on them. -/
def Obligations.InstancesAreIndependent : Prop :=
  ∀ (bank bank' : List State) (k : Fin bank.length), stepAt bank k = .next bank' →
    bank'.length = bank.length ∧ (∃ t : State, step bank[k] = .next t ∧ bank'[k.val]? = some t) ∧
    ∀ j : Nat, j ≠ k.val → bank'[j]? = bank[j]?

/-- After R44 and R93: steps of two different instances give the same bank in either order. The bank, and that its
instances step one at a time, are the model's choice (log entry 12, DESIGN CHOICE). -/
def Obligations.InstanceStepsCommute : Prop :=
  ∀ (bank : List State) (j k : Fin bank.length) (t u : State), j ≠ k →
    step bank[j] = .next t → step bank[k] = .next u →
    ∃ (b₁ b₂ : List State) (h₁ : k.val < b₁.length) (h₂ : j.val < b₂.length) (b : List State),
      stepAt bank j = .next b₁ ∧ stepAt bank k = .next b₂ ∧
      stepAt b₁ ⟨k.val, h₁⟩ = .next b ∧ stepAt b₂ ⟨j.val, h₂⟩ = .next b
end

