-- ==== Sys2Proof/Laws/State.lean ====
section
/-! SUPPORT. One lemma per field per register write, true by rfl, so that no proof unfolds a record update; and the
register views of the two positions. -/

namespace Sys2Proof.Machine

/-! ### Register views -/

@[simp] theorem Sync.lt_idle : Sync.lt .idle = 0b00#2 := rfl
@[simp] theorem Sync.lt_accumulating (t : PayloadType) (c : Count) : Sync.lt (.accumulating t c) = t.code := rfl
@[simp] theorem Sync.cnt_idle : Sync.cnt .idle = 0b000#3 := rfl
@[simp] theorem Sync.cnt_accumulating (t : PayloadType) (c : Count) :
    Sync.cnt (.accumulating t c) = countCode c := rfl

/-! ### Register writes -/

variable (blk : Block) (t : PayloadType) (c i : Count) (b : Byte)

@[simp] theorem Block.toIdle_sync : blk.toIdle.sync = .idle := rfl
@[simp] theorem Block.toIdle_buf : blk.toIdle.buf = blk.buf := rfl
@[simp] theorem Block.toIdle_cell : blk.toIdle.cell i = blk.cell i := rfl
@[simp] theorem Block.reset_sync : blk.reset.sync = .idle := rfl
@[simp] theorem Block.reset_buf : blk.reset.buf = blk.buf := rfl
@[simp] theorem Block.reset_cell : blk.reset.cell i = blk.cell i := rfl
@[simp] theorem Block.latch_sync : (blk.latch t).sync = .accumulating t 0 := rfl
@[simp] theorem Block.latch_buf : (blk.latch t).buf = blk.buf := rfl
@[simp] theorem Block.latch_cell : (blk.latch t).cell i = blk.cell i := rfl
@[simp] theorem Block.countUp_sync : (blk.countUp t c).sync = .accumulating t (c + 1) := rfl
@[simp] theorem Block.countUp_buf : (blk.countUp t c).buf = blk.buf := rfl
@[simp] theorem Block.countUp_cell : (blk.countUp t c).cell i = blk.cell i := rfl
@[simp] theorem Block.store_sync : (blk.store c b).sync = blk.sync := rfl

/-- A cell holds what was last stored in it. -/
@[simp] theorem Block.store_cell_same : (blk.store c b).cell c = b := by
  simp [Block.store, Block.cell]

/-- A store leaves every other cell alone. -/
theorem Block.store_cell_other (h : i ≠ c) : (blk.store c b).cell i = blk.cell i := by
  have : c.val ≠ i.val := fun e => h (Fin.ext e.symm)
  simp [Block.store, Block.cell, this]

/-! ### The host's side -/

variable (s : State) (o : PushOutcome)

@[simp] theorem State.emit_block : (s.emit b o blk).block = blk := rfl
@[simp] theorem State.emit_input : (s.emit b o blk).input = s.input := rfl
@[simp] theorem State.emit_transcript :
    (s.emit b o blk).transcript = ⟨.push b, some o⟩ :: s.transcript := rfl
@[simp] theorem State.takeReset_block : s.takeReset.block = s.block.reset := rfl
@[simp] theorem State.takeReset_input : s.takeReset.input = s.input := rfl
@[simp] theorem State.takeReset_transcript : s.takeReset.transcript = ⟨.reset, none⟩ :: s.transcript := rfl
@[simp] theorem State.takeNoPush_block : s.takeNoPush.block = s.block := rfl
@[simp] theorem State.takeNoPush_input : s.takeNoPush.input = s.input := rfl
@[simp] theorem State.takeNoPush_transcript : s.takeNoPush.transcript = ⟨.noPush, none⟩ :: s.transcript := rfl

end Sys2Proof.Machine
end

