-- ==== Sys2Proof/Laws/Ops.lean ====
section
/-! SUPPORT. What each shared operation can do: positions and their register codes, the field laws of the key, and
`perform`. -/

namespace Sys2Proof

/-! ### Codes -/

@[simp] theorem latchedOfCode_code (t : PayloadType) : latchedOfCode t.code = some t := by
  cases t <;> rfl

@[simp] theorem countOfCode_countCode (c : Count) : countOfCode (countCode c) = some c := by
  revert c; decide

theorem PayloadType.code_injective : Function.Injective PayloadType.code := by
  intro a b; cases a <;> cases b <;> decide

theorem countCode_injective : Function.Injective countCode := by
  intro a b h
  have := congrArg countOfCode h
  simpa using this

theorem PayloadType.code_ne_none (t : PayloadType) : t.code ≠ 0b00#2 := by
  cases t <;> decide

/-! ### Fields of the key (R50) -/

variable (lt : BitVec 2) (cnt : BitVec 3) (b : Byte)

theorem keyLt_keyOf : keyLt (keyOf lt cnt b) = lt := by
  ext i hi
  simp only [keyLt, keyOf, BitVec.getElem_extractLsb', BitVec.getLsbD_append]
  simp [show ¬ 11 + i < 8 by omega, show ¬ 11 + i - 8 < 3 by omega, show 11 + i - 8 - 3 = i by omega,
    BitVec.getLsbD_eq_getElem hi]

theorem keyCnt_keyOf : keyCnt (keyOf lt cnt b) = cnt := by
  ext i hi
  simp only [keyCnt, keyOf, BitVec.getElem_extractLsb', BitVec.getLsbD_append]
  simp [show ¬ 8 + i < 8 by omega, show 8 + i - 8 = i by omega, hi]

theorem keyByte_keyOf : keyByte (keyOf lt cnt b) = b := by
  ext i hi
  simp only [keyByte, keyOf, BitVec.getElem_extractLsb', BitVec.getLsbD_append]
  simp [hi]

/-- A key is its three fields. -/
theorem keyOf_fields (k : Key) : keyOf (keyLt k) (keyCnt k) (keyByte k) = k := by
  ext i hi
  simp only [keyOf, keyLt, keyCnt, keyByte]
  rw [BitVec.getElem_append]
  split
  · simp [BitVec.getLsbD_eq_getElem hi]
  · rw [BitVec.getElem_append]
    split <;> simp only [BitVec.getElem_extractLsb']
    · rw [show 8 + (i - 8) = i by omega]; exact BitVec.getLsbD_eq_getElem hi
    · rw [show 11 + (i - 8 - 3) = i by omega]; exact BitVec.getLsbD_eq_getElem hi

namespace Machine

/-- A position is its two register codes. -/
theorem Sync.eq_of_codes {p q : Sync} (hl : p.lt = q.lt) (hc : p.cnt = q.cnt) : p = q := by
  cases p with
  | idle =>
    cases q with
    | idle => rfl
    | accumulating t c => exact absurd hl.symm t.code_ne_none
  | accumulating t c =>
    cases q with
    | idle => exact absurd hl t.code_ne_none
    | accumulating u d => rw [PayloadType.code_injective hl, countCode_injective hc]

/-- `LT = NONE` is Idle (R12). -/
theorem Block.lt_none_iff (blk : Block) : blk.lt = 0b00#2 ↔ blk.sync = .idle := by
  cases h : blk.sync with
  | idle => simp [Block.lt, h]
  | accumulating t c => simp [Block.lt, h, t.code_ne_none]

/-- The registers name a latched type and a count exactly at that position. -/
theorem Block.at_iff (blk : Block) (t : PayloadType) (c : Count) :
    (blk.lt = t.code ∧ blk.cnt = countCode c) ↔ blk.sync = .accumulating t c :=
  ⟨fun h => Sync.eq_of_codes h.1 h.2, fun h => by simp [Block.lt, Block.cnt, h]⟩

/-! ### `perform` -/

variable {i : Instr} {blk : Block} {o : PushOutcome} {s t : State}

/-- Where the block admits the operation, its push emits the outcome and sets the registers. -/
theorem perform_of_admits (h : s.block.Admits i) : perform i blk o s = .next (s.emit i.byte o blk) := if_pos h

/-- Where it does not, there is no push of that operation. -/
theorem perform_of_not_admits (h : ¬ s.block.Admits i) : perform i blk o s = .refused (.notSelected i) := if_neg h

/-- All that `perform` can answer as a next state. -/
theorem perform_eq_next (h : perform i blk o s = .next t) : s.block.Admits i ∧ t = s.emit i.byte o blk := by
  by_cases ha : s.block.Admits i
  · rw [perform_of_admits ha] at h; exact ⟨ha, (Host.Outcome.next.inj h).symm⟩
  · rw [perform_of_not_admits ha] at h; cases h

end Machine

end Sys2Proof
end

