-- ==== Sys2Proof/Laws/Decode.lean ====
section
/-! SUPPORT. The operation map field by field, and the operation each key selects. -/

namespace Sys2Proof

/-- Two keys are equal when their fields are. -/
theorem key_eq_iff_fields (a b : Key) : a = b ↔ keyLt a = keyLt b ∧ keyCnt a = keyCnt b ∧ keyByte a = keyByte b :=
  ⟨fun h => by subst h; exact ⟨rfl, rfl, rfl⟩,
   fun ⟨h1, h2, h3⟩ => by rw [← keyOf_fields a, ← keyOf_fields b, h1, h2, h3]⟩

/-- Masking a key masks its fields. -/
theorem keyOf_and (lt lt' : BitVec 2) (cnt cnt' : BitVec 3) (b b' : Byte) :
    keyOf lt cnt b &&& keyOf lt' cnt' b' = keyOf (lt &&& lt') (cnt &&& cnt') (b &&& b') := by
  rw [key_eq_iff_fields, keyLt_keyOf, keyCnt_keyOf, keyByte_keyOf]
  have hl (a b : Key) : keyLt (a &&& b) = keyLt a &&& keyLt b := by
    ext i hi; simp [keyLt]
  have hc (a b : Key) : keyCnt (a &&& b) = keyCnt a &&& keyCnt b := by
    ext i hi; simp [keyCnt]
  have hb (a b : Key) : keyByte (a &&& b) = keyByte a &&& keyByte b := by
    ext i hi; simp [keyByte]
  simp only [hl, hc, hb, keyLt_keyOf, keyCnt_keyOf, keyByte_keyOf, and_self]

/-- `{LT, CNT, b}` determines the three. -/
theorem keyOf_inj (lt lt' : BitVec 2) (cnt cnt' : BitVec 3) (b b' : Byte) :
    keyOf lt cnt b = keyOf lt' cnt' b' ↔ lt = lt' ∧ cnt = cnt' ∧ b = b' := by
  rw [key_eq_iff_fields]; simp only [keyLt_keyOf, keyCnt_keyOf, keyByte_keyOf]

/-- A row matches a key field by field. -/
theorem selects_keyOf (op : Operation) (ml al lt : BitVec 2) (mc ac cnt : BitVec 3) (mb ab b : Byte) :
    (OpcodeRow.mk op (keyOf ml mc mb) (keyOf al ac ab)).selects (keyOf lt cnt b) =
      (lt &&& al == ml && (cnt &&& ac == mc && b &&& ab == mb)) := by
  rw [Bool.eq_iff_iff]
  simp [OpcodeRow.selects, keyOf_and, keyOf_inj]

/-- The operation map with its match and mask words cut into `LT`, `CNT` and byte. -/
theorem opcodeRows_fields : opcodeRows = [
  ⟨.hdrReserved, keyOf 0 0 0x00, keyOf 3 0 0xFF⟩,
  ⟨.hdrTelemetry, keyOf 0 0 0x01, keyOf 3 0 0xFF⟩,
  ⟨.hdrSetAttitude, keyOf 0 0 0x02, keyOf 3 0 0xFF⟩,
  ⟨.hdrAttitudeAchieved, keyOf 0 0 0x03, keyOf 3 0 0xFF⟩,
  ⟨.hdrInvalid, keyOf 0 0 0x04, keyOf 3 0 0xFC⟩,
  ⟨.hdrInvalid, keyOf 0 0 0x08, keyOf 3 0 0xF8⟩,
  ⟨.hdrInvalid, keyOf 0 0 0x10, keyOf 3 0 0xF0⟩,
  ⟨.hdrInvalid, keyOf 0 0 0x20, keyOf 3 0 0xE0⟩,
  ⟨.hdrInvalid, keyOf 0 0 0x40, keyOf 3 0 0xC0⟩,
  ⟨.hdrInvalid, keyOf 0 0 0x80, keyOf 3 0 0x80⟩,
  ⟨.payAppend, keyOf 1 0 0, keyOf 3 4 0⟩,
  ⟨.payAppend, keyOf 1 4 0, keyOf 3 7 0⟩,
  ⟨.payAppend, keyOf 2 0 0, keyOf 3 4 0⟩,
  ⟨.payAppend, keyOf 2 4 0, keyOf 3 7 0⟩,
  ⟨.payFinal, keyOf 1 5 0, keyOf 3 7 0⟩,
  ⟨.payFinal, keyOf 2 5 0, keyOf 3 7 0⟩] := by decide

/-- What a key with a latched type and a count selects: the payload family (R70, R71). -/
theorem decode_latched (t : PayloadType) (c : Count) (b : Byte) :
    decode (keyOf t.code (countCode c) b) =
      some (if c = 5 then .payFinal t b else .payAppend t c b) := by
  simp only [decode, opcodeRows_fields, List.find?, selects_keyOf]
  cases t <;> fin_cases c <;>
    simp [PayloadType.code, countCode, Operation.instr, keyLt_keyOf, keyCnt_keyOf, keyByte_keyOf,
      latchedOfCode, countOfCode]

/-- The header family by its byte alone (the table of R66). -/
def headerOperation (b : Byte) : Instr :=
  if b = 0x00#8 then .hdrReserved
  else if b = 0x01#8 then .hdrTelemetry
  else if b = 0x02#8 then .hdrSetAttitude
  else if b = 0x03#8 then .hdrAttitudeAchieved
  else .hdrInvalid b

/-- What a key with `LT = NONE` selects: the header family, whatever its `CNT` bits (R51). -/
theorem decode_idle (cnt : BitVec 3) (b : Byte) : decode (keyOf 0b00#2 cnt b) = some (headerOperation b) := by
  have ignoresCount : decode (keyOf 0b00#2 cnt b) = decode (keyOf 0b00#2 0#3 b) := by
    simp only [decode, opcodeRows_fields, List.find?, selects_keyOf]
    simp only [BitVec.zero_and, Operation.instr, keyByte_keyOf, keyLt_keyOf]
    simp [latchedOfCode]
  rw [ignoresCount]
  clear ignoresCount
  revert b; decide

/-! ### The operation of a push -/

namespace Machine

/-- The operation a push of `b` performs (R60). -/
def Block.operation (blk : Block) (b : Byte) : Instr :=
  match blk.sync with
  | .idle => headerOperation b
  | .accumulating t c => if c = 5 then .payFinal t b else .payAppend t c b

/-- The key of every state selects an operation. -/
theorem decode_key (blk : Block) (b : Byte) : decode (blk.key b) = some (blk.operation b) := by
  unfold Block.key Block.operation Block.lt Block.cnt
  cases blk.sync with
  | idle => exact decode_idle _ b
  | accumulating t c => exact decode_latched t c b

theorem headerOperation_spec (b : Byte) :
    WellFormed (headerOperation b) ∧ Instr.site (headerOperation b) = .idle ∧ (headerOperation b).byte = b := by
  revert b; decide

/-- The operation a push selects is one the block admits, and its byte is the pushed one. -/
theorem operation_spec (blk : Block) (b : Byte) :
    blk.Admits (blk.operation b) ∧ (blk.operation b).byte = b := by
  unfold Block.operation Block.Admits
  cases h : blk.sync with
  | idle =>
    obtain ⟨hw, hs, hb⟩ := headerOperation_spec b
    exact ⟨⟨hw, hs.symm⟩, hb⟩
  | accumulating t c =>
    by_cases hc : c = 5
    · subst hc; exact ⟨⟨rfl, rfl⟩, rfl⟩
    · have hw : c.val ≤ 4 := by
        have : c.val ≠ 5 := fun e => hc (Fin.ext e)
        omega
      simp only [if_neg hc]
      exact ⟨⟨decide_eq_true hw, rfl⟩, rfl⟩

end Machine

end Sys2Proof
end

