-- ==== Sys2Proof/Laws/PerInstr.lean ====
section
/-! SUPPORT. A law of the syntax, instruction by instruction: the three fields of an operation's key are the codes of
the position its Operands name and its byte (R50, R51). -/

namespace Sys2Proof.Laws.EncodingFields

open Sys2Proof.Machine

/-- The key of `i`, field by field. -/
def Statement (i : Instr) : Prop :=
  keyLt (encode i) = (Instr.site i).lt ∧ keyCnt (encode i) = (Instr.site i).cnt ∧ keyByte (encode i) = i.byte

theorem hdrReserved : Statement .hdrReserved := ⟨keyLt_keyOf _ _ _, keyCnt_keyOf _ _ _, keyByte_keyOf _ _ _⟩

theorem hdrTelemetry : Statement .hdrTelemetry := ⟨keyLt_keyOf _ _ _, keyCnt_keyOf _ _ _, keyByte_keyOf _ _ _⟩

theorem hdrSetAttitude : Statement .hdrSetAttitude := ⟨keyLt_keyOf _ _ _, keyCnt_keyOf _ _ _, keyByte_keyOf _ _ _⟩

theorem hdrAttitudeAchieved : Statement .hdrAttitudeAchieved :=
  ⟨keyLt_keyOf _ _ _, keyCnt_keyOf _ _ _, keyByte_keyOf _ _ _⟩

theorem hdrInvalid (b : Byte) : Statement (.hdrInvalid b) :=
  ⟨keyLt_keyOf _ _ _, keyCnt_keyOf _ _ _, keyByte_keyOf _ _ _⟩

theorem payAppend (latched : PayloadType) (count : Count) (b : Byte) : Statement (.payAppend latched count b) :=
  ⟨keyLt_keyOf _ _ _, keyCnt_keyOf _ _ _, keyByte_keyOf _ _ _⟩

theorem payFinal (latched : PayloadType) (b : Byte) : Statement (.payFinal latched b) :=
  ⟨keyLt_keyOf _ _ _, keyCnt_keyOf _ _ _, keyByte_keyOf _ _ _⟩

end Sys2Proof.Laws.EncodingFields
end

