-- ==== Sys2Proof/Laws/Step.lean ====
section
/-! SUPPORT. What one step can do, event by event, and the recursion of `run`. -/

namespace Sys2Proof.Machine

variable {s t : State} {rest : List Event} {b : Byte}

theorem step_of_no_event (h : s.input = []) : step s = .next s := by
  simp [step, fetch, h]

theorem step_of_reset (h : s.input = .reset :: rest) :
    step s = .next (State.takeReset { s with input := rest }) := by
  simp [step, fetch, h]

theorem step_of_noPush (h : s.input = .noPush :: rest) :
    step s = .next (State.takeNoPush { s with input := rest }) := by
  simp [step, fetch, h]

theorem step_of_unserialized {c : Byte} (h : s.input = .unserialized b c :: rest) :
    step s = .refused .unserializedPushes := by
  simp [step, fetch, h]

/-- A push runs the operation its key selects, with the byte consumed. -/
theorem step_of_push (h : s.input = .push b :: rest) :
    step s = exec (s.block.operation b) { s with input := rest } := by
  simp [step, fetch, h, decode_key]

/-! ### The effect of each operation on the registers, and its outcome -/

/-- The registers after an operation's push, from those before. -/
def Instr.after : Instr → Block → Block
  | .hdrReserved => Block.toIdle
  | .hdrTelemetry => Block.latch .telemetry
  | .hdrSetAttitude => Block.latch .setAttitude
  | .hdrAttitudeAchieved => Block.toIdle
  | .hdrInvalid _ => Block.toIdle
  | .payAppend latched count b => fun blk => (blk.store count b).countUp latched count
  | .payFinal _ b => fun blk => (blk.store 5 b).toIdle

/-- The outcome of an operation's push, from the registers before. -/
def Instr.outcome : Instr → Block → PushOutcome
  | .hdrReserved => fun _ => .complete ⟨.reserved, none⟩
  | .hdrTelemetry => fun _ => .cont
  | .hdrSetAttitude => fun _ => .cont
  | .hdrAttitudeAchieved => fun _ => .complete ⟨.attitudeAchieved, none⟩
  | .hdrInvalid _ => fun _ => .error .invalidHeader
  | .payAppend _ _ _ => fun _ => .cont
  | .payFinal latched b => fun blk => .complete ⟨latched.tag, some (blk.store 5 b).triplet⟩

/-- Every meaning is one `perform`. -/
theorem exec_eq_perform (i : Instr) (s : State) :
    exec i s = perform i (Instr.after i s.block) (Instr.outcome i s.block) s := by
  cases i <;> rfl

/-- The state after a push of `b`, with `rest` the events still to come. -/
def State.afterPush (s : State) (b : Byte) (rest : List Event) : State :=
  State.emit b (Instr.outcome (s.block.operation b) s.block) (Instr.after (s.block.operation b) s.block)
    { s with input := rest }

/-- Everything a push does: it answers a next state with the registers and the outcome of the one operation its key
selects. -/
theorem step_push_next (h : s.input = .push b :: rest) : step s = .next (s.afterPush b rest) := by
  obtain ⟨ha, hb⟩ := operation_spec s.block b
  rw [step_of_push h, exec_eq_perform, perform_of_admits (s := { s with input := rest }) ha, hb]
  rfl

/-- All that a step can answer as a next state. -/
theorem step_cases (h : step s = .next t) :
    (s.input = [] ∧ t = s) ∨
    (∃ rest, s.input = .reset :: rest ∧ t = State.takeReset { s with input := rest }) ∨
    (∃ rest, s.input = .noPush :: rest ∧ t = State.takeNoPush { s with input := rest }) ∨
    ∃ b rest, s.input = .push b :: rest ∧ t = s.afterPush b rest := by
  rcases hi : s.input with _ | ⟨e, rest⟩
  · rw [step_of_no_event hi] at h
    exact .inl ⟨rfl, (Host.Outcome.next.inj h).symm⟩
  · cases e with
    | push b =>
      rw [step_push_next hi] at h
      exact .inr (.inr (.inr ⟨b, rest, rfl, (Host.Outcome.next.inj h).symm⟩))
    | reset =>
      rw [step_of_reset hi] at h
      exact .inr (.inl ⟨rest, rfl, (Host.Outcome.next.inj h).symm⟩)
    | noPush =>
      rw [step_of_noPush hi] at h
      exact .inr (.inr (.inl ⟨rest, rfl, (Host.Outcome.next.inj h).symm⟩))
    | unserialized b c => rw [step_of_unserialized hi] at h; cases h

/-! ### Several steps -/

theorem run_zero (s : State) : run 0 s = .next s := rfl

theorem run_succ_of_next {n : Nat} (h : step s = .next t) : run (n + 1) s = run n t := by
  have hc : Sys2Proof.core.step s = .next t := h
  simp only [run, Host.Core.run, hc]
  rfl

/-- A run of several steps begins with one. -/
theorem run_succ_cases {n : Nat} (h : run (n + 1) s = .next t) : ∃ u, step s = .next u ∧ run n u = .next t := by
  simp only [run, Host.Core.run] at h
  split at h
  · exact ⟨_, by assumption, h⟩
  · cases h
  · cases h

end Sys2Proof.Machine
end

