-- ==== Sys2Proof/Tests/Slice0.lean ====
section
/-! SUPPORT. The model's own tests: values from spec/95_test_vectors.md and the tables of the rules (never from a run
of this model), and for every statement with hypotheses a witness that meets them. -/

namespace Sys2Proof.Tests

open Sys2Proof.Machine

/-! ### A small state and a look at one step -/

/-- A block at position `p` with cells `c`, and one byte to come. -/
def at1 (p : Sync) (c : Vector Byte 6) (b : Byte) : State :=
  { block := { sync := p, buf := c }, input := [.push b], transcript := [] }

/-- A state whose next event is `e`. -/
def withEvent (p : Sync) (e : Event) : State :=
  { block := { sync := p, buf := #v[1, 2, 3, 4, 5, 6] }, input := [e], transcript := [] }

/-- A step that goes on to a state satisfying `f`. -/
def goesOn (r : Host.Outcome State Fault Refusal) (f : State → Bool) : Bool :=
  match r with
  | .next t => f t
  | .fault _ => false
  | .refused _ => false

/-- Registers and outcome after one push, as the vectors give them. -/
def gives (r : Host.Outcome State Fault Refusal) (lt : BitVec 2) (cnt : BitVec 3) (c : Vector Byte 6)
    (o : PushOutcome) : Bool :=
  goesOn r fun t => t.block.lt == lt && t.block.cnt == cnt && t.block.buf == c && t.outcomes == [o]

/-- Six cells no vector cares about. -/
def stale : Vector Byte 6 := #v[0xA0, 0xA1, 0xA2, 0xA3, 0xA4, 0xA5]

/-! ### Well-formedness refuses what R65 and R70 exclude -/

theorem test_wf_refuses_valid_header_as_invalid : ¬ WellFormed (.hdrInvalid 0x03#8) := by decide

theorem test_wf_refuses_append_at_five : ¬ WellFormed (.payAppend .telemetry 5 0x00#8) := by decide

theorem test_wf_accepts_bounds :
    WellFormed (.hdrInvalid 0x04#8) ∧ WellFormed (.hdrInvalid 0xFF#8) ∧ WellFormed (.payAppend .setAttitude 4 0#8) := by
  decide

/-! ### Decoding: keys written out from the patterns of R51 as `LL CCC BBBBBBBB` -/

theorem test_decode_reserved : decode 0b0000000000000#13 = some .hdrReserved := by decide

theorem test_decode_telemetry : decode 0b0000000000001#13 = some .hdrTelemetry := by decide

theorem test_decode_setAttitude : decode 0b0000000000010#13 = some .hdrSetAttitude := by decide

theorem test_decode_attitudeAchieved : decode 0b0000000000011#13 = some .hdrAttitudeAchieved := by decide

/-- One key for each of the six `HDR_INVALID` rows, and 0x81 and 0x06 of V-H10 and V-H11. -/
theorem test_decode_invalid :
    [0b0000000000100#13, 0b0000000001111#13, 0b0000000010000#13, 0b0000000111111#13, 0b0000001000000#13,
      0b0000011111111#13, 0b0000010000001#13, 0b0000000000110#13].map decode =
    [0x04#8, 0x0F#8, 0x10#8, 0x3F#8, 0x40#8, 0xFF#8, 0x81#8, 0x06#8].map (fun b => some (.hdrInvalid b)) := by decide

/-- One key for each of the four `PAY_APPEND` rows. -/
theorem test_decode_append :
    decode 0b0101100000011#13 = some (.payAppend .telemetry 3 0x03#8) ∧
    decode 0b0110010011010#13 = some (.payAppend .telemetry 4 0x9A#8) ∧
    decode 0b1000000000010#13 = some (.payAppend .setAttitude 0 0x02#8) ∧
    decode 0b1010011111111#13 = some (.payAppend .setAttitude 4 0xFF#8) := by decide

theorem test_decode_final :
    decode 0b0110110111100#13 = some (.payFinal .telemetry 0xBC#8) ∧
    decode 0b1010100000000#13 = some (.payFinal .setAttitude 0x00#8) := by decide

/-- R54: `LT` = 0b11, and `CNT` 6 or 7 with a type latched, select nothing; a number above 13 bits is no key. -/
theorem test_decode_unreachable :
    decode 0x1800#13 = none ∧ decode 0x1F00#13 = none ∧ decode 0x0E00#13 = none ∧ decode 0x0F12#13 = none ∧
    decode 0x1600#13 = none ∧ decode 0x17FF#13 = none ∧ decodeTableWord 16 0x2000 = none := by decide

/-- R51: the Idle rows ignore `CNT`. -/
theorem test_decode_idle_ignores_count : decode 0x0701#13 = some .hdrTelemetry := by decide

/-- Frame lengths: 1 and 7 (R48). -/
theorem test_frame_lengths :
    MessageType.reserved.frameLength = 1 ∧ MessageType.telemetry.frameLength = 7 ∧
    MessageType.setAttitude.frameLength = 7 ∧ MessageType.attitudeAchieved.frameLength = 1 := by decide

/-! ### One push each -/

/-- V-H1. -/
theorem test_reserved :
    gives (step (at1 .idle stale 0x00)) 0b00 0 stale (.complete ⟨.reserved, none⟩) = true := by decide

/-- V-H2. -/
theorem test_telemetry : gives (step (at1 .idle stale 0x01)) 0b01 0 stale .cont = true := by decide

/-- V-H3. -/
theorem test_setAttitude : gives (step (at1 .idle stale 0x02)) 0b10 0 stale .cont = true := by decide

/-- V-H4. -/
theorem test_attitudeAchieved :
    gives (step (at1 .idle stale 0x03)) 0b00 0 stale (.complete ⟨.attitudeAchieved, none⟩) = true := by decide

/-- V-H5. -/
theorem test_invalid_least :
    gives (step (at1 .idle stale 0x04)) 0b00 0 stale (.error .invalidHeader) = true := by decide

/-- V-H9. -/
theorem test_invalid_greatest :
    gives (step (at1 .idle stale 0xFF)) 0b00 0 stale (.error .invalidHeader) = true := by decide

/-- V-P5: the fifth payload byte. -/
theorem test_append_fifth :
    gives (step (at1 (.accumulating .telemetry 4) #v[0x00, 0x01, 0x03, 0xFF, 0xA4, 0xA5] 0x80)) 0b01 5
      #v[0x00, 0x01, 0x03, 0xFF, 0x80, 0xA5] .cont = true := by decide

/-- V-P9: a payload byte equal to the frame's own header does not restart it. -/
theorem test_append_header_valued :
    gives (step (at1 (.accumulating .setAttitude 0) stale 0x02)) 0b10 1
      #v[0x02, 0xA1, 0xA2, 0xA3, 0xA4, 0xA5] .cont = true := by decide

/-- V-P6. -/
theorem test_final_telemetry :
    gives (step (at1 (.accumulating .telemetry 5) #v[0x00, 0x01, 0x03, 0xFF, 0x80, 0xA5] 0x00)) 0b00 0
      #v[0x00, 0x01, 0x03, 0xFF, 0x80, 0x00] (.complete ⟨.telemetry, some ⟨1, 1023, -32768⟩⟩) = true := by decide

/-- V-P8: z low is the pushed byte, not the stale cell. -/
theorem test_final_ignores_stale_cell :
    gives (step (at1 (.accumulating .setAttitude 5) #v[0, 0, 0, 0, 0, 0x77] 0x00)) 0b00 0
      #v[0, 0, 0, 0, 0, 0] (.complete ⟨.setAttitude, some ⟨0, 0, 0⟩⟩) = true := by decide

/-- V-R2, the reset event: no outcome, `BUF` kept. -/
theorem test_reset_event :
    goesOn (step (withEvent (.accumulating .setAttitude 1) .reset)) (fun t =>
      t.block.lt == 0b00 && t.block.cnt == 0 && t.block.buf == #v[1, 2, 3, 4, 5, 6] && t.outcomes == []) = true := by
  decide

/-- V-S1: no push holds the partial frame and emits nothing. -/
theorem test_no_push :
    goesOn (step (withEvent (.accumulating .telemetry 1) .noPush)) (fun t =>
      t.block == (withEvent (.accumulating .telemetry 1) .noPush).block && t.outcomes == []) = true := by decide

/-- A placed key runs next (K of L1-2, step 7). -/
theorem test_placed_key :
    goesOn (step (State.reset.withFetchWord 16 0x0DBC)) (fun t =>
      t.transcript == [⟨.push 0xBC, some (.complete ⟨.telemetry, some ⟨0, 0, 188⟩⟩)⟩]) = true := by decide

/-! ### The extractor -/

/-- V-B2 to V-B7. -/
theorem test_be16 :
    be16 0x7F 0xFF = 32767 ∧ be16 0x80 0x00 = -32768 ∧ be16 0xFF 0xFF = -1 ∧ be16 0x00 0xFF = 255 ∧
    be16 0xFF 0x00 = -256 ∧ be16 0x80 0x01 = -32767 := by decide

/-- V-D1 and V-D4. -/
theorem test_decode6 :
    decode6 0x12 0x34 0x56 0x78 0x9A 0xBC = ⟨4660, 22136, -25924⟩ ∧
    decode6 0x00 0x01 0x00 0x02 0x00 0x03 = ⟨1, 2, 3⟩ := by decide

/-! ### Streams and pins -/

/-- P1 and P2: macros to bytes. -/
theorem test_macro_bytes :
    [StreamItem.frame (.tel 1 (-1) (-32768)), .frame .ach].flatMap StreamItem.bytes =
      [0x01, 0x00, 0x01, 0xFF, 0xFF, 0x80, 0x00, 0x03] ∧
    [StreamItem.byte 0xFF, .frame (.set 32767 (-32768) 0), .frame .rsv].flatMap StreamItem.bytes =
      [0xFF, 0x02, 0x7F, 0xFF, 0x80, 0x00, 0x00, 0x00, 0x00] := by decide

/-- Cycles 1, 3, 4 and 5 of the pin-level table (95, section 2.7). -/
theorem test_pins_header_cycles :
    pinOutputs ⟨.idle, stale⟩ ⟨false, true, 0x03⟩ = ⟨0b10, 0b11, false, 0, 0, 0⟩ ∧
    pinOutputs ⟨.idle, stale⟩ ⟨false, true, 0x01⟩ = ⟨0b01, 0b00, false, 0, 0, 0⟩ ∧
    pinOutputs ⟨.accumulating .telemetry 0, stale⟩ ⟨true, true, 0x12⟩ = ⟨0b00, 0b00, false, 0, 0, 0⟩ ∧
    pinOutputs ⟨.idle, stale⟩ ⟨false, true, 0x12⟩ = ⟨0b11, 0b00, false, 0, 0, 0⟩ := by decide

/-- The last byte of L1-2 on the ports (R57). -/
theorem test_pins_final_cycle :
    pinOutputs ⟨.accumulating .telemetry 5, #v[0x12, 0x34, 0x56, 0x78, 0x9A, 0x77]⟩ ⟨false, true, 0xBC⟩ =
      ⟨0b10, 0b01, true, 0x1234, 0x5678, 0x9ABC⟩ := by decide

/-! ### Witnesses: a concrete state and operands that meet the hypotheses of each statement -/

theorem witness_HdrReservedCompletesItsFrame : State.reset.block.lt = 0b00#2 := by decide

theorem witness_HdrTelemetryLatchesTelemetry : (at1 .idle stale 1).block.lt = 0b00#2 := by decide

theorem witness_HdrSetAttitudeLatchesSetAttitude : (at1 .idle stale 2).block.lt = 0b00#2 := by decide

theorem witness_HdrAttitudeAchievedCompletesItsFrame : (at1 .idle stale 3).block.lt = 0b00#2 := by decide

theorem witness_HdrInvalidReportsOneError :
    State.reset.block.lt = 0b00#2 ∧ 4 ≤ (0x04#8 : Byte).toNat ∧ 4 ≤ (0xFF#8 : Byte).toNat := by decide

theorem witness_PayAppendStoresOneByte_first :
    (at1 (.accumulating .telemetry 0) stale 9).block.lt = PayloadType.telemetry.code ∧
    (at1 (.accumulating .telemetry 0) stale 9).block.cnt = countCode 0 ∧ (0 : Count).val ≤ 4 := by decide

theorem witness_PayAppendStoresOneByte_last :
    (at1 (.accumulating .setAttitude 4) stale 9).block.lt = PayloadType.setAttitude.code ∧
    (at1 (.accumulating .setAttitude 4) stale 9).block.cnt = countCode 4 ∧ (4 : Count).val ≤ 4 := by decide

theorem witness_PayFinalCompletesTheFrame :
    (at1 (.accumulating .setAttitude 5) stale 9).block.lt = PayloadType.setAttitude.code ∧
    (at1 (.accumulating .setAttitude 5) stale 9).block.cnt = 0b101#3 := by decide

theorem witness_HeaderFamilyLeavesBufAlone :
    Instr.site .hdrTelemetry = .idle ∧ ∃ t, exec .hdrTelemetry (at1 .idle stale 1) = .next t := ⟨rfl, _, rfl⟩

theorem witness_IdlePushDependsOnTheByteAlone :
    (at1 .idle stale 1).block.lt = 0b00#2 ∧ (withEvent .idle (.push 1)).block.lt = 0b00#2 ∧
    (at1 .idle stale 1).input = [.push 1] ∧ (withEvent .idle (.push 1)).input = [.push 1] ∧
    (∃ t, step (at1 .idle stale 1) = .next t) ∧ ∃ t, step (withEvent .idle (.push 1)) = .next t :=
  ⟨rfl, rfl, rfl, rfl, ⟨_, rfl⟩, _, rfl⟩

theorem witness_StepWritesAtMostTheCellAtCount :
    (∃ t, step (at1 (.accumulating .telemetry 5) stale 9) = .next t) ∧
    (at1 (.accumulating .telemetry 5) stale 9).input = [.push 9] ∧
    (at1 (.accumulating .telemetry 5) stale 9).block.lt ≠ 0b00#2 ∧
    (at1 (.accumulating .telemetry 5) stale 9).block.cnt = countCode 5 := ⟨⟨_, rfl⟩, rfl, by decide, rfl⟩

theorem witness_WritersOfLatchedTypeAndCount :
    (∃ t, exec (.payAppend .telemetry 4 7) (at1 (.accumulating .telemetry 4) stale 7) = .next t) ∧
    (∃ t, step (at1 (.accumulating .telemetry 4) stale 7) = .next t) ∧
    (at1 (.accumulating .telemetry 4) stale 7).block.lt ≠ 0b00#2 := ⟨⟨_, rfl⟩, ⟨_, rfl⟩, by decide⟩

/-- The header family's cases, and the sixth byte, of the same statement. -/
theorem witness_WritersOfLatchedTypeAndCount_others :
    (∃ t, exec .hdrReserved (at1 .idle stale 0) = .next t) ∧
    (∃ t, exec .hdrTelemetry (at1 .idle stale 1) = .next t) ∧
    (∃ t, exec .hdrSetAttitude (at1 .idle stale 2) = .next t) ∧
    (∃ t, exec .hdrAttitudeAchieved (at1 .idle stale 3) = .next t) ∧
    (∃ t, exec (.hdrInvalid 4) (at1 .idle stale 4) = .next t) ∧
    ∃ t, exec (.payFinal .setAttitude 7) (at1 (.accumulating .setAttitude 5) stale 7) = .next t :=
  ⟨⟨_, rfl⟩, ⟨_, rfl⟩, ⟨_, rfl⟩, ⟨_, rfl⟩, ⟨_, rfl⟩, _, rfl⟩

theorem witness_PayloadBytesAreData_below_five :
    (at1 (.accumulating .telemetry 4) stale 0).input = [.push 0] ∧
    (at1 (.accumulating .telemetry 4) stale 0).block.lt ≠ 0b00#2 ∧
    (at1 (.accumulating .telemetry 4) stale 0).block.cnt = countCode 4 := by decide

theorem witness_PayloadBytesAreData_at_five :
    (at1 (.accumulating .setAttitude 5) stale 0xFF).input = [.push 0xFF] ∧
    (at1 (.accumulating .setAttitude 5) stale 0xFF).block.lt ≠ 0b00#2 ∧
    (at1 (.accumulating .setAttitude 5) stale 0xFF).block.cnt = countCode 5 := by decide

theorem witness_ErrorExactlyForABadHeader :
    (at1 .idle stale 4).input = [.push 4] ∧ ∃ t, step (at1 .idle stale 4) = .next t ∧
      t.transcript = [⟨.push 4, some (.error .invalidHeader)⟩] := ⟨rfl, _, rfl, rfl⟩

theorem witness_OutcomeTellsThePhase :
    ((at1 .idle stale 1).input = [.push 1] ∧ ∃ t, step (at1 .idle stale 1) = .next t) ∧
    (withEvent (.accumulating .telemetry 2) .reset).input = [.reset] ∧
    ∃ t, step (withEvent (.accumulating .telemetry 2) .reset) = .next t := ⟨⟨rfl, _, rfl⟩, rfl, _, rfl⟩

theorem witness_PayloadEndsOnlyBySixthByteOrReset_sixth :
    ∃ t, step (at1 (.accumulating .telemetry 5) stale 0) = .next t ∧
      (at1 (.accumulating .telemetry 5) stale 0).block.phase = .accumulatingPayload ∧ t.block.phase = .idle :=
  ⟨_, rfl, by decide, by decide⟩

theorem witness_PayloadEndsOnlyBySixthByteOrReset_reset :
    ∃ t, step (withEvent (.accumulating .telemetry 0) .reset) = .next t ∧
      (withEvent (.accumulating .telemetry 0) .reset).block.phase = .accumulatingPayload ∧ t.block.phase = .idle :=
  ⟨_, rfl, by decide, by decide⟩

theorem witness_EmittedFramesAreProper :
    (at1 .idle stale 3).input = [.push 3] ∧ ∃ t, step (at1 .idle stale 3) = .next t ∧
      t.transcript = [⟨.push 3, some (.complete ⟨.attitudeAchieved, none⟩)⟩] := ⟨rfl, _, rfl, rfl⟩

theorem witness_StepRunsTheDecodedOperation :
    (at1 (.accumulating .telemetry 5) stale 0xBC).input = [.push 0xBC] ∧
    decode ((at1 (.accumulating .telemetry 5) stale 0xBC).block.key 0xBC) = some (.payFinal .telemetry 0xBC) ∧
    WellFormed (.payFinal .telemetry 0xBC) := by decide

theorem witness_ExecCompletesExactlyWhereSelected_refused :
    decode (State.reset.block.key (Instr.payFinal .telemetry 0).byte) ≠ some (.payFinal .telemetry 0) := by decide

theorem witness_EveryPushGivesOneOutcome :
    (at1 .idle stale 4).input = [.push 4] ∧ (at1 .idle stale 4).block.lt = 0b00#2 ∧ 4 ≤ (4#8 : Byte).toNat := by decide

theorem witness_EventsAreConsumedOnceInOrder :
    (∃ t, step State.reset = .next t) ∧ ∃ t, step (at1 .idle stale 0) = .next t := ⟨⟨_, rfl⟩, _, rfl⟩

/-- D15: unserialized pushes have no step. -/
theorem witness_OnlyUnserializedPushesAreRefused :
    step (withEvent .idle (.unserialized 1 2)) = .refused .unserializedPushes := rfl

theorem witness_SerializedHostAlwaysGoesOn : (at1 .idle stale 0).Serialized := by
  intro b c h
  cases h with
  | tail _ h => cases h

theorem witness_ResetEventClearsTypeAndCount :
    (withEvent (.accumulating .telemetry 3) .reset).input = .reset :: [] := rfl

theorem witness_NoPushHoldsTheState :
    State.reset.input = [] ∧ (withEvent (.accumulating .telemetry 3) .noPush).input = .noPush :: [] := ⟨rfl, rfl⟩

/-- A partial frame of one payload byte, with the transcript that opened it (L1-6). -/
def partialFrame : State :=
  { block := { sync := .accumulating .telemetry 1, buf := #v[0x12, 0xA1, 0xA2, 0xA3, 0xA4, 0xA5] }
    input := [.push 0x34]
    transcript := [⟨.push 0x12, some .cont⟩, ⟨.push 0x01, some .cont⟩] }

theorem witness_EveryStepKeepsInv : partialFrame.Inv ∧ ∃ t, step partialFrame = .next t :=
  ⟨⟨.inl ⟨rfl, rfl⟩, rfl, by decide, by decide⟩, _, rfl⟩

/-- `partialFrame` with other stale cells. -/
def partialFrameZeroed : State :=
  { partialFrame with block := { partialFrame.block with buf := #v[0x12, 0, 0, 0, 0, 0] } }

theorem witness_StaleCellsNeverMatterToAStep :
    partialFrame.SameButStale partialFrameZeroed ∧ partialFrame ≠ partialFrameZeroed ∧
      ∃ t, step partialFrame = .next t :=
  ⟨⟨rfl, rfl, rfl, by decide⟩, by decide, _, rfl⟩

theorem witness_StaleCellsNeverReachAnOutcome :
    partialFrame.SameButStale partialFrameZeroed ∧ ∃ t, run 2 partialFrame = .next t :=
  ⟨⟨rfl, rfl, rfl, by decide⟩, _, rfl⟩

theorem witness_IdleForgetsThePast :
    (at1 .idle stale 1).block.lt = 0b00#2 ∧ ∃ t, run 2 (at1 .idle stale 1) = .next t := ⟨rfl, _, rfl⟩

/-- A pause, then the next payload byte. -/
def pausedFrame : State := { partialFrame with input := [.noPush, .push 0x34] }

theorem witness_PausesChangeNothing : ∃ t, run pausedFrame.input.length pausedFrame = .next t := ⟨_, rfl⟩

theorem witness_StalledFrameIsHeld : ({ partialFrame with input := [] } : State).input = [] := rfl

theorem witness_PayloadFrameGivesSevenOutcomes :
    ({ State.reset with input := pushes [0x02, 1, 2, 3, 4, 5, 6] } : State).block.lt = 0b00#2 ∧
    ({ State.reset with input := pushes [0x02, 1, 2, 3, 4, 5, 6] } : State).input =
      pushes [PayloadType.setAttitude.tag.header, 1, 2, 3, 4, 5, 6] ++ [] := ⟨rfl, rfl⟩

/-- The stream of P1. -/
def streamP1 : List FrameMacro := [.tel 1 (-1) (-32768), .ach]

theorem witness_StreamOfFramesIsDecoded :
    State.reset.block.lt = 0b00#2 ∧ (∀ m ∈ streamP1, m.InRange) ∧
    ({ State.reset with input := pushes (streamP1.flatMap FrameMacro.bytes) } : State).input =
      pushes (streamP1.flatMap FrameMacro.bytes) ++ [] := by
  refine ⟨rfl, ?_, by simp⟩
  intro m hm
  simp only [streamP1, List.mem_cons, List.not_mem_nil, or_false] at hm
  rcases hm with rfl | rfl
  · exact ⟨by decide, by decide, by decide⟩
  · trivial

theorem witness_Decode6IsABijection : AxisRange (-32768) ∧ AxisRange 0 ∧ AxisRange 32767 := by decide

theorem witness_EncodedOperationsDecodeBack :
    WellFormed (.hdrInvalid 0x04#8) ∧ WellFormed (.payAppend .telemetry 4 0xFF#8) := by decide

theorem witness_DecodedKeysEncodeBack :
    decode 0x0701#13 = some .hdrTelemetry ∧ decode 0x15FF#13 = some (.payFinal .setAttitude 0xFF#8) := by decide

theorem witness_PlacedKeyRunsNext : decodeTableWord 16 0x1400 = some (.payAppend .setAttitude 4 0x00#8) := by decide

theorem witness_OutcomePortsFollowTheTable :
    (PinIn.mk true true 0).rst = true ∧ (PinIn.mk false false 0).inValid = false := by decide

/-- A bank of two instances at different positions. -/
def bankOfTwo : List State := [at1 .idle stale 1, partialFrame]

theorem witness_InstancesAreIndependent : ∃ b, stepAt bankOfTwo (⟨0, by decide⟩ : Fin 2) = .next b := ⟨_, rfl⟩

theorem witness_InstanceStepsCommute :
    ((⟨0, by decide⟩ : Fin bankOfTwo.length) ≠ ⟨1, by decide⟩) ∧
    (∃ t, step bankOfTwo[0] = .next t) ∧ ∃ u, step bankOfTwo[1] = .next u := ⟨by decide, ⟨_, rfl⟩, _, rfl⟩

end Sys2Proof.Tests
end

/-! Proofs of the statements about the state. What the block holds of an open frame is one list of bytes,
`Block.received`; what a push does to it says what INV keeps, which cells are stale and which phase follows. -/

namespace Sys2Proof

/-! ### Codes and values -/

theorem countCode_toNat (c : Count) : (countCode c).toNat = c.val := by
  revert c; decide

/-- Below 5 the 3-bit code counts up without wrap (R70, R76). -/
theorem countCode_succ {c : Count} (h : c.val ≤ 4) : countCode (c + 1) = countCode c + 1#3 := by
  revert c; decide

theorem count_succ_val {c : Count} (h : c.val ≤ 4) : (c + 1).val = c.val + 1 := by
  revert c; decide

theorem PayloadType.code_header_iff (t : PayloadType) (h : Byte) :
    (h = 0x01#8 ∧ t.code = 0b01#2 ∨ h = 0x02#8 ∧ t.code = 0b10#2) ↔ h = t.tag.header := by
  cases t <;> simp [PayloadType.code, PayloadType.tag, MessageType.header]

theorem PayloadType.header_injective : Function.Injective fun t : PayloadType => t.tag.header := by
  intro a b; cases a <;> cases b <;> decide

theorem Config.resetBuf_getElem (i : Count) : Config.resetBuf[i.val] = 0x00#8 := Vector.getElem_replicate _

end Sys2Proof

namespace Sys2Proof.Machine

/-! ### The bytes received -/

/-- The bytes of the open frame as the registers hold them: none in Idle, otherwise the header of the latched type
and `BUF[0 .. CNT-1]`. Both INV (R18) and the states no outcome can tell apart (R17) are equations of this list. -/
def Block.received (blk : Block) : List Byte :=
  match blk.sync with
  | .idle => []
  | .accumulating t c => t.tag.header :: blk.buf.toList.take c.val

section
variable {blk blk' : Block} {t : PayloadType} {c : Count} {b : Byte}

theorem Block.received_of_idle (h : blk.sync = .idle) : blk.received = [] := by
  simp [Block.received, h]

theorem Block.received_of_accumulating (h : blk.sync = .accumulating t c) :
    blk.received = t.tag.header :: blk.buf.toList.take c.val := by
  simp [Block.received, h]

theorem Block.received_eq_nil_iff : blk.received = [] ↔ blk.sync = .idle := by
  cases h : blk.sync with
  | idle => simp [Block.received_of_idle h]
  | accumulating t c => simp [Block.received_of_accumulating h]

@[simp] theorem Block.toIdle_received : blk.toIdle.received = [] := rfl

@[simp] theorem Block.reset_received : blk.reset.received = [] := rfl

@[simp] theorem Block.latch_received : (blk.latch t).received = [t.tag.header] := rfl

/-- The payload part of `received`, cell by cell. -/
theorem Block.take_buf_getElem? (blk : Block) (n : Nat) (i : Count) :
    (blk.buf.toList.take n)[i.val]? = if i.val < n then some (blk.cell i) else none := by
  simp [List.getElem?_take, Block.cell]

/-- Storing at `CNT` and counting up appends the stored byte. -/
theorem Block.append_received (hs : blk.sync = .accumulating t c) (hc : c.val ≤ 4) :
    ((blk.store c b).countUp t c).received = blk.received ++ [b] := by
  rw [Block.received_of_accumulating hs, Block.received_of_accumulating (Block.countUp_sync _ t c),
    count_succ_val hc, List.take_add_one]
  simp [Block.store, Vector.toList_set, List.take_set_of_le]

/-- The phase is Idle exactly when no byte is held (R12). -/
theorem Block.phase_idle_iff : blk.phase = .idle ↔ blk.received = [] := by
  simp [Block.phase, Block.lt_none_iff, Block.received_eq_nil_iff]

theorem Block.phase_accumulatingPayload_iff : blk.phase = .accumulatingPayload ↔ blk.received ≠ [] := by
  simp [Block.phase, Block.lt_none_iff, Block.received_eq_nil_iff]

/-- A list is `BUF[0 .. n-1]` when it has that length and those cells. -/
theorem Block.eq_take_buf_iff (blk : Block) (n : Count) (l : List Byte) :
    l = blk.buf.toList.take n.val ↔
      l.length = n.val ∧ ∀ i : Count, i.val < n.val → l[i.val]? = some (blk.cell i) := by
  have hlen : (blk.buf.toList.take n.val).length = n.val := by simp
  constructor
  · rintro rfl
    exact ⟨hlen, fun i hi => by rw [blk.take_buf_getElem?, if_pos hi]⟩
  · rintro ⟨hl, hcells⟩
    refine List.ext_getElem? fun j => ?_
    by_cases hj : j < n.val
    · have hcell := hcells ⟨j, hj.trans n.isLt⟩ hj
      rw [hcell, blk.take_buf_getElem? n.val ⟨j, hj.trans n.isLt⟩, if_pos hj]
    · rw [List.getElem?_eq_none (by omega), List.getElem?_eq_none (by omega)]

/-! ### INV and stale cells, as equations of the bytes received -/

/-- INV (R18) says that the registers hold exactly the bytes of the open frame. -/
theorem Block.holds_iff (blk : Block) (frame : List Byte) : blk.Holds frame ↔ frame = blk.received := by
  cases hs : blk.sync with
  | idle =>
    rw [Block.received_of_idle hs]
    cases frame <;> simp [Block.Holds, Block.lt, Block.cnt, hs]
  | accumulating t c =>
    rw [Block.received_of_accumulating hs]
    cases frame with
    | nil => simp [Block.Holds, Block.lt, hs, t.code_ne_none]
    | cons h payload =>
      simp only [Block.Holds, Block.lt, Block.cnt, hs, Sync.lt_accumulating, Sync.cnt_accumulating,
        PayloadType.code_header_iff, countCode_toNat, List.cons.injEq, Block.eq_take_buf_iff]
      constructor
      · rintro ⟨rfl, hlen, -, hcells⟩
        exact ⟨rfl, hlen.symm, hlen ▸ hcells⟩
      · rintro ⟨rfl, hlen, hcells⟩
        exact ⟨rfl, hlen.symm, by omega, hlen ▸ hcells⟩

theorem State.inv_iff (s : State) : s.Inv ↔ openFrame s.transcript = s.block.received :=
  s.block.holds_iff _

/-- The bytes received are the position and the cells below `CNT`; the stale cells are the rest (R17). -/
theorem Block.received_eq_iff : blk.received = blk'.received ↔
    blk.sync = blk'.sync ∧ ∀ i : Count, i.val < blk.cnt.toNat → blk.cell i = blk'.cell i := by
  cases hs : blk.sync with
  | idle =>
    rw [Block.received_of_idle hs, eq_comm, Block.received_eq_nil_iff]
    simp [Block.cnt, hs, eq_comm]
  | accumulating t c =>
    have hcnt : blk.cnt.toNat = c.val := by rw [Block.cnt, hs, Sync.cnt_accumulating, countCode_toNat]
    rw [Block.received_of_accumulating hs, hcnt]
    constructor
    · intro hr
      cases hs' : blk'.sync with
      | idle => rw [Block.received_of_idle hs'] at hr; cases hr
      | accumulating t' c' =>
        rw [Block.received_of_accumulating hs', List.cons.injEq, Block.eq_take_buf_iff] at hr
        obtain ⟨hheader, hlen, hcells⟩ := hr
        obtain rfl : t = t' := PayloadType.header_injective hheader
        obtain rfl : c = c' := Fin.ext (by simpa using hlen)
        refine ⟨rfl, fun i hi => ?_⟩
        have hcell := hcells i hi
        rwa [blk.take_buf_getElem?, if_pos hi, Option.some.injEq] at hcell
    · rintro ⟨hs', hcells⟩
      rw [Block.received_of_accumulating hs'.symm, List.cons.injEq, Block.eq_take_buf_iff]
      refine ⟨rfl, by simp, fun i hi => ?_⟩
      rw [blk.take_buf_getElem?, if_pos hi, hcells i hi]

theorem State.sameButStale_iff {s t : State} : s.SameButStale t ↔
    s.block.received = t.block.received ∧ s.input = t.input ∧ s.transcript = t.transcript := by
  rw [Block.received_eq_iff]
  exact ⟨fun ⟨hsync, hi, ht, hcell⟩ => ⟨⟨hsync, hcell⟩, hi, ht⟩,
    fun ⟨⟨hsync, hcell⟩, hi, ht⟩ => ⟨hsync, hi, ht, hcell⟩⟩

end

/-! ### Pushes at the level of the registers -/

/-- The registers after a push of `b`. -/
def Block.afterPush (blk : Block) (b : Byte) : Block := Instr.after (blk.operation b) blk

/-- The outcome of a push of `b`. -/
def Block.pushOutcome (blk : Block) (b : Byte) : PushOutcome := Instr.outcome (blk.operation b) blk

section
variable {s t : State} {rest : List Event} {blk blk' : Block} {i : Instr} {p : PayloadType} {c : Count} {b : Byte}

@[simp] theorem State.afterPush_block : (s.afterPush b rest).block = s.block.afterPush b := rfl

@[simp] theorem State.afterPush_input : (s.afterPush b rest).input = rest := rfl

@[simp] theorem State.afterPush_transcript :
    (s.afterPush b rest).transcript = ⟨.push b, some (s.block.pushOutcome b)⟩ :: s.transcript := rfl

/-- All that `exec` can answer as a next state. -/
theorem exec_eq_next (h : exec i s = .next t) :
    s.block.Admits i ∧ t = s.emit i.byte (Instr.outcome i s.block) (Instr.after i s.block) := by
  rw [exec_eq_perform] at h
  exact perform_eq_next h

/-! #### In Idle -/

theorem Block.operation_idle (h : blk.sync = .idle) : blk.operation b = headerOperation b := by
  simp [Block.operation, h]

/-- The header family writes no cell (R66). -/
theorem Instr.after_buf_of_site_idle (h : Instr.site i = .idle) : (Instr.after i blk).buf = blk.buf := by
  cases i with
  | hdrReserved => rfl
  | hdrTelemetry => rfl
  | hdrSetAttitude => rfl
  | hdrAttitudeAchieved => rfl
  | hdrInvalid b => rfl
  | payAppend p c b => cases h
  | payFinal p b => cases h

theorem Block.afterPush_buf_idle (h : blk.sync = .idle) : (blk.afterPush b).buf = blk.buf := by
  rw [Block.afterPush, Block.operation_idle h]
  exact Instr.after_buf_of_site_idle (headerOperation_spec b).2.1

/-- The header of a type with a payload latches that type (R62, R63). -/
theorem Block.afterPush_header (h : blk.sync = .idle) : blk.afterPush p.tag.header = blk.latch p := by
  rw [Block.afterPush, Block.operation_idle h]
  cases p <;> rfl

/-! #### With a type latched -/

/-- What a payload push leaves in the registers (R70, R71). -/
theorem Block.afterPush_accumulating (h : blk.sync = .accumulating p c) :
    blk.afterPush b = if c = 5 then (blk.store 5 b).toIdle else (blk.store c b).countUp p c := by
  simp only [Block.afterPush, Block.operation, h]
  split <;> rfl

/-- A payload push writes the cell at `CNT` and no other (R16). -/
theorem Block.afterPush_cell_accumulating (h : blk.sync = .accumulating p c) (j : Count) :
    (blk.afterPush b).cell j = if j = c then b else blk.cell j := by
  have hcell : (blk.afterPush b).cell j = (blk.store c b).cell j := by
    rw [Block.afterPush_accumulating h]
    split
    next hc => rw [hc, Block.toIdle_cell]
    next => rw [Block.countUp_cell]
  rw [hcell]
  split
  next hj => rw [hj, Block.store_cell_same]
  next hj => exact Block.store_cell_other _ _ _ _ hj

/-- The frame of the sixth byte: five cells and that byte (R71). -/
theorem Block.store_five_triplet : (blk.store 5 b).triplet =
    decode6 (blk.cell 0) (blk.cell 1) (blk.cell 2) (blk.cell 3) (blk.cell 4) b := by
  simp [Block.triplet, Block.store_cell_other]

/-- A step keeps a latched type or clears it (R13). -/
theorem step_keeps_or_clears_lt (hstep : step s = .next t) (hlt : s.block.lt ≠ 0b00#2) :
    t.block.lt = s.block.lt ∨ t.block.lt = 0b00#2 := by
  obtain ⟨-, rfl⟩ | ⟨rest, -, rfl⟩ | ⟨rest, -, rfl⟩ | ⟨b, rest, -, rfl⟩ := step_cases hstep
  · exact .inl rfl
  · exact .inr rfl
  · exact .inl rfl
  · cases hs : s.block.sync with
    | idle => exact absurd (s.block.lt_none_iff.mpr hs) hlt
    | accumulating p c =>
      rw [State.afterPush_block, Block.afterPush_accumulating hs, ((s.block.at_iff p c).mpr hs).1]
      split
      next => exact .inr rfl
      next => exact .inl rfl

/-! #### What a push does to the bytes received -/

/-- `Continue` keeps the byte as the next one of the open frame; every other outcome ends the frame (R24, R108). -/
theorem Instr.after_received (h : blk.Admits i) :
    (Instr.after i blk).received = if Instr.outcome i blk = .cont then blk.received ++ [i.byte] else [] := by
  obtain ⟨hwf, hsite⟩ := h
  cases i with
  | hdrReserved => rfl
  | hdrTelemetry => rw [Block.received_of_idle hsite]; rfl
  | hdrSetAttitude => rw [Block.received_of_idle hsite]; rfl
  | hdrAttitudeAchieved => rfl
  | hdrInvalid b => rfl
  | payAppend p c b => exact Block.append_received hsite (of_decide_eq_true hwf)
  | payFinal p b => rfl

theorem Block.afterPush_received (blk : Block) (b : Byte) :
    (blk.afterPush b).received = if blk.pushOutcome b = .cont then blk.received ++ [b] else [] := by
  obtain ⟨hadmits, hbyte⟩ := operation_spec blk b
  have h := Instr.after_received hadmits
  rwa [hbyte] at h

/-- The transcript's open frame changes over a push in the same way. -/
theorem openFrame_push (b : Byte) (o : PushOutcome) (earlier : List Exchange) :
    openFrame (⟨.push b, some o⟩ :: earlier) = if o = .cont then openFrame earlier ++ [b] else [] := by
  cases o <;> rfl

/-- The outcome of an operation reads no stale cell: `HDR_*` and `PAY_APPEND` read none, and `PAY_FINAL` reads
`BUF[0 .. 4]`, which are below `CNT`, and the pushed byte. -/
theorem Instr.outcome_eq_of_received_eq (h : blk.Admits i) (hr : blk.received = blk'.received) :
    Instr.outcome i blk = Instr.outcome i blk' := by
  cases i with
  | hdrReserved => rfl
  | hdrTelemetry => rfl
  | hdrSetAttitude => rfl
  | hdrAttitudeAchieved => rfl
  | hdrInvalid b => rfl
  | payAppend p c b => rfl
  | payFinal p b =>
    have hcnt : blk.cnt.toNat = 5 := by
      rw [Block.cnt, h.2]; rfl
    have hcell := (Block.received_eq_iff.mp hr).2
    rw [hcnt] at hcell
    simp only [Instr.outcome, Block.store_five_triplet, hcell 0 (by decide), hcell 1 (by decide),
      hcell 2 (by decide), hcell 3 (by decide), hcell 4 (by decide)]

/-- The outcome of a push is a function of the bytes received and the pushed byte (R17). -/
theorem Block.pushOutcome_eq_of_received_eq (h : blk.received = blk'.received) (b : Byte) :
    blk.pushOutcome b = blk'.pushOutcome b := by
  rw [Block.pushOutcome, Block.pushOutcome, Instr.outcome_eq_of_received_eq (operation_spec blk b).1 h,
    Block.operation, Block.operation, (Block.received_eq_iff.mp h).1]

end

/-! ### Pushes in a row -/

/-- The registers after the pushes of a byte list. -/
def Block.afterPushes (blk : Block) (bs : List Byte) : Block := bs.foldl Block.afterPush blk

section
variable {s : State} {rest : List Event} {blk blk' : Block} {p : PayloadType}

@[simp] theorem Block.afterPushes_nil (blk : Block) : blk.afterPushes [] = blk := rfl

@[simp] theorem Block.afterPushes_cons (blk : Block) (b : Byte) (bs : List Byte) :
    blk.afterPushes (b :: bs) = (blk.afterPush b).afterPushes bs := rfl

@[simp] theorem Block.afterPushes_append (blk : Block) (bs cs : List Byte) :
    blk.afterPushes (bs ++ cs) = (blk.afterPushes bs).afterPushes cs := List.foldl_append

theorem Block.afterPushes_concat (blk : Block) (bs : List Byte) (b : Byte) :
    blk.afterPushes (bs ++ [b]) = (blk.afterPushes bs).afterPush b := by simp

/-- Pushing a byte list always runs, and leaves the registers that its pushes leave one after another. -/
theorem run_pushes (bs : List Byte) (h : s.input = pushes bs ++ rest) :
    ∃ t : State, run bs.length s = .next t ∧ t.block = s.block.afterPushes bs ∧ t.input = rest := by
  induction bs generalizing s with
  | nil => exact ⟨s, rfl, rfl, h⟩
  | cons b bs ih =>
    obtain ⟨t, hrun, hblock, hin⟩ := ih (s := s.afterPush b (pushes bs ++ rest)) rfl
    exact ⟨t, (run_succ_of_next (step_push_next h)).trans hrun, hblock, hin⟩

/-- Two blocks with the same position and the same cells are the same. -/
theorem Block.eq_of_cells (hs : blk.sync = blk'.sync) (hc : ∀ j : Count, blk.cell j = blk'.cell j) : blk = blk' := by
  obtain ⟨p, v⟩ := blk
  obtain ⟨p', v'⟩ := blk'
  obtain rfl : p = p' := hs
  obtain rfl : v = v' := Vector.ext fun j hj => hc ⟨j, hj⟩
  rfl

theorem toList_take_succ (w : Vector Byte 6) {n : Nat} (hn : n < 6) :
    w.toList.take (n + 1) = w.toList.take n ++ [w[n]] := by simp [List.take_add_one, hn]

/-- A header and the first `n` bytes of `w`, pushed from Idle: the position is `n` and the bytes lie in `BUF` in
arrival order (R33, R70), over what was there. -/
theorem Block.afterPushes_partialFrame (h : blk.sync = .idle) (w : Vector Byte 6) {n : Nat} (hn : n < 6) :
    (blk.afterPushes (p.tag.header :: w.toList.take n)).sync = .accumulating p ⟨n, hn⟩ ∧
      ∀ j : Count, (blk.afterPushes (p.tag.header :: w.toList.take n)).cell j =
        if j.val < n then w[j.val] else blk.cell j := by
  induction n with
  | zero => simp [Block.afterPush_header h]
  | succ n ih =>
    obtain ⟨hs, hcell⟩ := ih (by omega)
    rw [toList_take_succ w (by omega), ← List.cons_append, Block.afterPushes_concat]
    constructor
    · have hc : (⟨n, by omega⟩ : Count) ≠ 5 := Fin.ne_of_val_ne (show n ≠ 5 by omega)
      rw [Block.afterPush_accumulating hs, if_neg hc, Block.countUp_sync]
      congr 1
      exact Fin.ext (count_succ_val (show n ≤ 4 by omega))
    · intro j
      rw [Block.afterPush_cell_accumulating hs, hcell]
      by_cases hj : j.val = n
      · have : j = ⟨n, by omega⟩ := Fin.ext hj
        simp [this]
      · have : j ≠ ⟨n, by omega⟩ := Fin.ne_of_val_ne hj
        simp [this, show j.val < n + 1 ↔ j.val < n by omega]

/-- A whole payload frame pushed from Idle leaves Idle, with its six bytes in `BUF` (R71). -/
theorem Block.afterPushes_wholeFrame (h : blk.sync = .idle) (w : Vector Byte 6) :
    blk.afterPushes (p.tag.header :: w.toList) = ⟨.idle, w⟩ := by
  obtain ⟨hs, hcell⟩ := Block.afterPushes_partialFrame (p := p) h w (n := 5) (by omega)
  have hlist : w.toList = w.toList.take 5 ++ [w[5]] := by
    rw [← toList_take_succ w (by omega), List.take_of_length_le (by simp)]
  rw [hlist, ← List.cons_append, Block.afterPushes_concat]
  apply Block.eq_of_cells
  · rw [Block.afterPush_accumulating hs]; rfl
  · intro j
    rw [Block.afterPush_cell_accumulating hs, hcell]
    by_cases hj : j = 5
    · subst hj; rfl
    · have : j.val ≠ 5 := fun e => hj (Fin.ext e)
      rw [if_neg (show j ≠ ⟨5, _⟩ from hj), if_pos (by omega)]
      rfl

/-- Pushing the bytes a block holds, over the same `BUF` in Idle, gives that block. -/
theorem Block.afterPushes_received (h : blk'.sync = .idle) (hbuf : blk'.buf = blk.buf) :
    blk'.afterPushes blk.received = blk := by
  cases hs : blk.sync with
  | idle =>
    rw [Block.received_of_idle hs, Block.afterPushes_nil]
    exact Block.eq_of_cells (h.trans hs.symm) fun j => by rw [Block.cell, Block.cell, hbuf]
  | accumulating p c =>
    rw [Block.received_of_accumulating hs]
    obtain ⟨hs', hcell⟩ := Block.afterPushes_partialFrame (p := p) h blk.buf c.isLt
    refine Block.eq_of_cells (hs'.trans hs.symm) fun j => ?_
    rw [hcell, Block.cell, Block.cell, hbuf, ite_self]

/-- Bytes that lead to a given block: a Telemetry frame fills `BUF`, then the bytes the block holds open its frame. -/
def Block.bytesFromReset (blk : Block) : List Byte :=
  (PayloadType.telemetry.tag.header :: blk.buf.toList) ++ blk.received

theorem Block.afterPushes_bytesFromReset (h : blk'.sync = .idle) : blk'.afterPushes blk.bytesFromReset = blk := by
  rw [Block.bytesFromReset, Block.afterPushes_append, Block.afterPushes_wholeFrame h]
  exact Block.afterPushes_received rfl rfl

end

/-! ### The statements about the state (10_state.md) -/

/-- Settles O29: over a push the bytes received and the transcript's open frame change alike. -/
theorem everyStepKeepsInv : Obligations.EveryStepKeepsInv := by
  intro s t hinv hstep
  rw [State.inv_iff] at hinv ⊢
  obtain ⟨-, rfl⟩ | ⟨rest, -, rfl⟩ | ⟨rest, -, rfl⟩ | ⟨b, rest, -, rfl⟩ := step_cases hstep
  · exact hinv
  · rfl
  · exact hinv
  · rw [State.afterPush_transcript, State.afterPush_block, openFrame_push, Block.afterPush_received, hinv]

/-- Settles O31: a step's registers and outcome are functions of the bytes received, which stale cells are not
among. -/
theorem staleCellsNeverMatterToAStep : Obligations.StaleCellsNeverMatterToAStep := by
  intro s s' t hsame hstep
  obtain ⟨hr, hi, ht⟩ := State.sameButStale_iff.mp hsame
  obtain ⟨hin, rfl⟩ | ⟨rest, hin, rfl⟩ | ⟨rest, hin, rfl⟩ | ⟨b, rest, hin, rfl⟩ := step_cases hstep
  · exact ⟨s', step_of_no_event (hi ▸ hin), hsame⟩
  · refine ⟨_, step_of_reset (hi ▸ hin), State.sameButStale_iff.mpr ⟨?_, ?_, ?_⟩⟩ <;> simp [ht]
  · refine ⟨_, step_of_noPush (hi ▸ hin), State.sameButStale_iff.mpr ⟨hr, rfl, ?_⟩⟩
    simp [ht]
  · have ho := Block.pushOutcome_eq_of_received_eq hr b
    refine ⟨_, step_push_next (hi ▸ hin), State.sameButStale_iff.mpr ⟨?_, rfl, ?_⟩⟩
    · simp only [State.afterPush_block, Block.afterPush_received, ho, hr]
    · simp only [State.afterPush_transcript, ho, ht]

/-- Settles O10: only a payload push writes a cell, the one at `CNT`. -/
theorem stepWritesAtMostTheCellAtCount : Obligations.StepWritesAtMostTheCellAtCount := by
  intro s t j hstep
  obtain ⟨hin, rfl⟩ | ⟨rest, hin, rfl⟩ | ⟨rest, hin, rfl⟩ | ⟨b, rest, hin, rfl⟩ := step_cases hstep
  · exact ⟨.inl rfl, by simp [hin]⟩
  · exact ⟨.inl rfl, by simp [hin]⟩
  · exact ⟨.inl rfl, by simp [hin]⟩
  · rw [State.afterPush_block]
    cases hs : s.block.sync with
    | idle =>
      refine ⟨.inl ?_, fun _ _ _ hlt => absurd (s.block.lt_none_iff.mpr hs) hlt⟩
      rw [Block.cell, Block.cell, Block.afterPush_buf_idle hs]
    | accumulating p c =>
      obtain ⟨hlt, hcnt⟩ := (s.block.at_iff p c).mpr hs
      rw [hlt, hcnt, Block.afterPush_cell_accumulating hs]
      constructor
      · by_cases hj : j = c
        · subst hj
          exact .inr ⟨b, rest, hin, p.code_ne_none, rfl, if_pos rfl⟩
        · exact .inl (if_neg hj)
      · intro b' rest' hin' _ hc
        rw [hin] at hin'
        cases hin'
        exact if_pos (countCode_injective hc).symm

/-- Settles O11: an operation's meaning fixes `LT` and `CNT`, from the position its Operands name. -/
theorem writersOfLatchedTypeAndCount : Obligations.WritersOfLatchedTypeAndCount := by
  refine ⟨?_, fun s => ⟨rfl, rfl⟩, fun s t => step_keeps_or_clears_lt⟩
  intro i s t hexec
  obtain ⟨⟨hwf, hsite⟩, rfl⟩ := exec_eq_next hexec
  have hlt : s.block.lt = (Instr.site i).lt := congrArg Sync.lt hsite
  have hcnt : s.block.cnt = (Instr.site i).cnt := congrArg Sync.cnt hsite
  cases i with
  | hdrReserved => exact ⟨hlt, rfl, rfl⟩
  | hdrTelemetry => exact ⟨rfl, rfl⟩
  | hdrSetAttitude => exact ⟨rfl, rfl⟩
  | hdrAttitudeAchieved => exact ⟨hlt, rfl, rfl⟩
  | hdrInvalid b => exact ⟨hlt, rfl, rfl⟩
  | payAppend p c b =>
    exact ⟨hlt.symm, (countCode_succ (of_decide_eq_true hwf)).trans (congrArg (· + 1#3) hcnt.symm)⟩
  | payFinal p b => exact ⟨rfl, rfl⟩

/-- Settles O14: the outcome decides whether any byte is held afterwards, and the phase says whether one is. -/
theorem outcomeTellsThePhase : Obligations.OutcomeTellsThePhase := by
  constructor
  · intro s t b rest hin hstep
    rw [step_push_next hin] at hstep
    cases hstep
    refine ⟨s.block.pushOutcome b, rfl, ?_⟩
    rw [State.afterPush_block, Block.phase_accumulatingPayload_iff, Block.phase_idle_iff, Block.afterPush_received]
    by_cases ho : s.block.pushOutcome b = .cont <;> simp [ho]
  · intro s t rest hin hstep
    rw [step_of_reset hin] at hstep
    cases hstep
    rfl

/-- Settles O30: pushed from reset, `bytesFromReset` leaves the block it is made from. -/
theorem everyBlockStateIsReachable : Obligations.EveryBlockStateIsReachable := by
  intro blk
  obtain ⟨t, hrun, hblock, -⟩ := run_pushes (s := { State.reset with input := pushes blk.bytesFromReset })
    (rest := []) blk.bytesFromReset (List.append_nil _).symm
  exact ⟨blk.bytesFromReset, t, hrun, hblock.trans (Block.afterPushes_bytesFromReset rfl)⟩

/-- A run from states that differ only in stale cells ends in such states. -/
theorem run_sameButStale {n : Nat} {s s' t : State} (h : s.SameButStale s') (hrun : run n s = .next t) :
    ∃ t' : State, run n s' = .next t' ∧ t.SameButStale t' := by
  induction n generalizing s s' with
  | zero =>
    rw [run_zero] at hrun
    cases hrun
    exact ⟨s', rfl, h⟩
  | succ n ih =>
    obtain ⟨u, hstep, hrest⟩ := run_succ_cases hrun
    obtain ⟨u', hstep', hu⟩ := staleCellsNeverMatterToAStep s s' u h hstep
    obtain ⟨t', hrun', ht⟩ := ih hu hrest
    exact ⟨t', (run_succ_of_next hstep').trans hrun', ht⟩

/-- Settles O32: the transcripts stay equal over a run, and the outcomes are read from them. -/
theorem staleCellsNeverReachAnOutcome : Obligations.StaleCellsNeverReachAnOutcome := by
  intro n s s' t hsame hrun
  obtain ⟨t', hrun', -, -, htranscript, -⟩ := run_sameButStale hsame hrun
  exact ⟨t', hrun', by rw [State.outcomes, State.outcomes, htranscript]⟩

/-- Settles O25: the position of `State.reset` is Idle, and its codes compute. -/
theorem resetStateIsIdle : Obligations.ResetStateIsIdle := ⟨rfl, rfl, rfl⟩

/-- Settles O26: `Config.resetBuf` is zero in every cell, and `State.reset` has no exchanges. -/
theorem resetStateModelChoices : Obligations.ResetStateModelChoices := ⟨Config.resetBuf_getElem, rfl, rfl⟩

/-- Settles O27: by the two positions a block can be at. -/
theorem registerCodesAreLegal : Obligations.RegisterCodesAreLegal := by
  intro blk
  cases hs : blk.sync with
  | idle => exact .inl ⟨congrArg Sync.lt hs, congrArg Sync.cnt hs⟩
  | accumulating p c =>
    obtain ⟨hlt, hcnt⟩ := (blk.at_iff p c).mpr hs
    rw [hlt, hcnt, countCode_toNat]
    refine .inr ⟨?_, by omega⟩
    cases p with
    | telemetry => exact .inl rfl
    | setAttitude => exact .inr rfl

/-- Settles O28: no byte is open at reset, and none is held. -/
theorem invHoldsAtReset : Obligations.InvHoldsAtReset := State.reset.inv_iff.mpr rfl

end Sys2Proof.Machine

/-! Proofs of the statements about what is consumed and what is shared: a step takes at most one event from the host,
and a bank of instances has nothing in common between two of them. -/

namespace Sys2Proof.Machine

/-! ### A step of one instance of a bank -/

section
variable {bank bank' : List State} {j k : Fin bank.length} {t u : State}

/-- An instance of a bank steps as it would alone, and its next state takes its place. -/
theorem stepAt_eq_next_iff :
    stepAt bank k = .next bank' ↔ ∃ t, step bank[k] = .next t ∧ bank' = bank.set k.val t := by
  rw [stepAt]
  cases step bank[k] with
  | next t => simp [eq_comm]
  | fault f => simp
  | refused r => simp

/-- What another instance has become does not matter to a step of instance `k`. -/
theorem stepAt_set_of_ne (hjk : j ≠ k) (hk : step bank[k] = .next u) (hlt : k.val < (bank.set j.val t).length) :
    stepAt (bank.set j.val t) ⟨k.val, hlt⟩ = .next ((bank.set j.val t).set k.val u) := by
  have hsame : (bank.set j.val t)[k.val] = bank[k] := List.getElem_set_ne (Fin.val_ne_of_ne hjk) hlt
  exact stepAt_eq_next_iff.mpr ⟨u, (congrArg step hsame).trans hk, rfl⟩

end

/-! ### The statements about memory (20_memory.md) -/

/-- Settles O20: each kind of event is taken from the head of the input and put at the head of the transcript. -/
theorem eventsAreConsumedOnceInOrder : Obligations.EventsAreConsumedOnceInOrder := by
  intro s t hstep
  obtain hnone | ⟨rest, hin, rfl⟩ | ⟨rest, hin, rfl⟩ | ⟨b, rest, hin, rfl⟩ := step_cases hstep
  · exact .inl hnone
  · exact .inr ⟨.reset, none, hin, rfl⟩
  · exact .inr ⟨.noPush, none, hin, rfl⟩
  · exact .inr ⟨.push b, some (s.block.pushOutcome b), hin, rfl⟩

/-- Settles O48: the next bank is the old one with instance `k` replaced. -/
theorem instancesAreIndependent : Obligations.InstancesAreIndependent := by
  intro bank bank' k hstep
  obtain ⟨t, hk, rfl⟩ := stepAt_eq_next_iff.mp hstep
  refine ⟨List.length_set, ⟨t, hk, List.getElem?_set_self k.isLt⟩, ?_⟩
  exact fun j hj => List.getElem?_set_ne hj.symm

/-- Settles O49: each of the two steps is the same before and after the other, and replacing two different instances
commutes. -/
theorem instanceStepsCommute : Obligations.InstanceStepsCommute := by
  intro bank j k t u hjk hj hk
  have hlen (i : Fin bank.length) (n : Nat) (v : State) : i.val < (bank.set n v).length :=
    List.length_set.symm ▸ i.isLt
  have hcomm : (bank.set k.val u).set j.val t = (bank.set j.val t).set k.val u :=
    List.set_comm u t (Fin.val_ne_of_ne hjk.symm)
  refine ⟨bank.set j.val t, bank.set k.val u, hlen k j t, hlen j k u, (bank.set j.val t).set k.val u,
    stepAt_eq_next_iff.mpr ⟨t, hj, rfl⟩, stepAt_eq_next_iff.mpr ⟨u, hk, rfl⟩, stepAt_set_of_ne hjk hk _, ?_⟩
  rw [← hcomm]
  exact stepAt_set_of_ne hjk.symm hj _

end Sys2Proof.Machine

/-! Proofs of the statements about the encoding (30_encoding.md). One equivalence, `decode_eq_some_iff`, says what a
key decodes to; one list, `Block.pushOutcomes`, says what a byte stream is answered with. -/

namespace Sys2Proof

/-! ### The rows that match a key (R51, R54) -/

theorem latchedOfCode_eq_some_iff {lt : BitVec 2} {t : PayloadType} : latchedOfCode lt = some t ↔ lt = t.code := by
  revert lt; cases t <;> decide

theorem countOfCode_eq_some_iff {cnt : BitVec 3} {c : Count} : countOfCode cnt = some c ↔ cnt = countCode c := by
  revert cnt c; decide

/-- How many rows of the map match a key. -/
def matchCount (k : Key) : Nat := (opcodeRows.filter (·.selects k)).length

/-- In Idle one row matches every byte; the header rows ignore `CNT`. -/
theorem matchCount_idle (cnt : BitVec 3) (b : Byte) : matchCount (keyOf 0b00#2 cnt b) = 1 := by
  have ignoresCount : matchCount (keyOf 0b00#2 cnt b) = matchCount (keyOf 0b00#2 0#3 b) := by
    simp [matchCount, ← List.countP_eq_length_filter, opcodeRows_fields, List.countP_cons, selects_keyOf]
  rw [ignoresCount]
  clear ignoresCount
  revert b; decide

/-- With a type latched one row matches up to `CNT` = 5 and none above; the payload rows ignore the byte. -/
theorem matchCount_latched (t : PayloadType) (cnt : BitVec 3) (b : Byte) :
    matchCount (keyOf t.code cnt b) = if cnt.toNat ≤ 5 then 1 else 0 := by
  have ignoresByte : matchCount (keyOf t.code cnt b) = matchCount (keyOf t.code cnt 0#8) := by
    cases t <;>
      simp [matchCount, ← List.countP_eq_length_filter, opcodeRows_fields, List.countP_cons, selects_keyOf,
        PayloadType.code]
  rw [ignoresByte]
  clear ignoresByte
  revert cnt; cases t <;> decide

/-- No row has `LT` = 0b11 (R54). -/
theorem matchCount_lt_three (cnt : BitVec 3) (b : Byte) : matchCount (keyOf 0b11#2 cnt b) = 0 := by
  simp [matchCount, opcodeRows_fields, selects_keyOf]

/-- The number of matching rows, by the two register fields of the key. -/
theorem matchCount_eq (k : Key) : matchCount k =
    if keyLt k = 0b00#2 ∨ (keyLt k = 0b01#2 ∨ keyLt k = 0b10#2) ∧ (keyCnt k).toNat ≤ 5 then 1 else 0 := by
  have hlt : ∀ lt : BitVec 2, lt = 0b00#2 ∨ lt = 0b01#2 ∨ lt = 0b10#2 ∨ lt = 0b11#2 := by decide
  rw [← keyOf_fields k, keyLt_keyOf, keyCnt_keyOf]
  generalize keyLt k = lt, keyCnt k = cnt, keyByte k = b
  obtain rfl | rfl | rfl | rfl := hlt lt
  · exact matchCount_idle cnt b
  · simpa [PayloadType.code] using matchCount_latched .telemetry cnt b
  · simpa [PayloadType.code] using matchCount_latched .setAttitude cnt b
  · exact matchCount_lt_three cnt b

end Sys2Proof

namespace Sys2Proof.Machine

/-! ### The position of a key -/

section
variable {k : Key} {p : Sync} {i : Instr} {blk : Block} {b : Byte}

/-- A key stands for the position with its two codes, `CNT` read as 0 in Idle (log entry 8). -/
theorem syncOfKey_eq_some_iff : syncOfKey k = some p ↔
    p.lt = keyLt k ∧ p.cnt = if keyLt k = 0b00#2 then 0b000#3 else keyCnt k := by
  rw [syncOfKey]
  split
  next hlt =>
    rw [Option.some.injEq, hlt]
    exact ⟨fun h => h ▸ ⟨rfl, rfl⟩, fun ⟨hl, hc⟩ => Sync.eq_of_codes hl.symm hc.symm⟩
  next hlt =>
    cases p with
    | idle =>
      constructor
      · intro h
        split at h <;> cases h
      · exact fun h => absurd h.1.symm hlt
    | accumulating t c =>
      rw [Sync.lt_accumulating, Sync.cnt_accumulating, eq_comm (a := t.code), eq_comm (a := countCode c),
        ← latchedOfCode_eq_some_iff, ← countOfCode_eq_some_iff]
      cases latchedOfCode (keyLt k) <;> cases countOfCode (keyCnt k) <;> simp

/-- The codes of R54 are those of no position. -/
theorem syncOfKey_eq_none_iff : syncOfKey k = none ↔
    ¬ (keyLt k = 0b00#2 ∨ (keyLt k = 0b01#2 ∨ keyLt k = 0b10#2) ∧ (keyCnt k).toNat ≤ 5) := by
  rw [syncOfKey]
  generalize keyLt k = lt, keyCnt k = cnt
  revert lt cnt
  decide

theorem syncOfKey_keyOf (p : Sync) (b : Byte) : syncOfKey (keyOf p.lt p.cnt b) = some p := by
  rw [syncOfKey_eq_some_iff, keyLt_keyOf, keyCnt_keyOf]
  cases p with
  | idle => exact ⟨rfl, rfl⟩
  | accumulating t c => exact ⟨rfl, (if_neg t.code_ne_none).symm⟩

/-! ### What a key decodes to -/

theorem filter_selects_eq_nil_iff : opcodeRows.filter (·.selects k) = [] ↔ syncOfKey k = none := by
  rw [← List.length_eq_zero_iff, ← matchCount, matchCount_eq, syncOfKey_eq_none_iff]
  simp

/-- A key at the position of a block selects what the push of its byte to that block selects. -/
theorem decode_of_syncOfKey (h : syncOfKey k = some blk.sync) : decode k = some (blk.operation (keyByte k)) := by
  obtain ⟨hlt, hcnt⟩ := syncOfKey_eq_some_iff.mp h
  cases hs : blk.sync with
  | idle =>
    rw [hs, Sync.lt_idle] at hlt
    rw [Block.operation_idle hs, ← keyOf_fields k, ← hlt, decode_idle, keyByte_keyOf]
  | accumulating t c =>
    rw [hs, Sync.lt_accumulating] at hlt
    rw [hs, ← hlt, if_neg t.code_ne_none] at hcnt
    have hkey : blk.key (keyByte k) = k := by
      rw [Block.key, Block.lt, Block.cnt, hs, Sync.lt_accumulating, hlt, hcnt, keyOf_fields]
    rw [← decode_key, hkey]

theorem decode_of_syncOfKey_none (h : syncOfKey k = none) : decode k = none := by
  have hnone : opcodeRows.find? (·.selects k) = none :=
    List.find?_eq_none.mpr (List.filter_eq_nil_iff.mp (filter_selects_eq_nil_iff.mpr h))
  rw [decode, hnone]

/-- The invalid headers are all bytes but the four message types (R65). -/
theorem headerOperation_invalid (h : 4 ≤ b.toNat) : headerOperation b = .hdrInvalid b := by
  revert b; decide

/-- An operation the block admits is the one that the push of its byte selects. -/
theorem Block.operation_of_admits (h : blk.Admits i) : blk.operation i.byte = i := by
  obtain ⟨hwf, hsite⟩ := h
  rw [Block.operation, hsite]
  cases i with
  | hdrReserved => rfl
  | hdrTelemetry => rfl
  | hdrSetAttitude => rfl
  | hdrAttitudeAchieved => rfl
  | hdrInvalid b => exact headerOperation_invalid (of_decide_eq_true hwf)
  | payAppend t c b =>
    have hc : c ≠ 5 := fun e => absurd (of_decide_eq_true hwf) (by simp [e])
    exact if_neg hc
  | payFinal t b => rfl

/-- What a key decodes to: the one well-formed operation with the key's position and byte (R50, R51). -/
theorem decode_eq_some_iff :
    decode k = some i ↔ WellFormed i ∧ syncOfKey k = some (Instr.site i) ∧ i.byte = keyByte k := by
  constructor
  · intro h
    cases hp : syncOfKey k with
    | none => rw [decode_of_syncOfKey_none hp] at h; cases h
    | some p =>
      rw [decode_of_syncOfKey (blk := ⟨p, Config.resetBuf⟩) hp, Option.some.injEq] at h
      obtain ⟨⟨hwf, hsite⟩, hbyte⟩ := operation_spec ⟨p, Config.resetBuf⟩ (keyByte k)
      rw [h] at hwf hsite hbyte
      exact ⟨hwf, congrArg some hsite, hbyte⟩
  · rintro ⟨hwf, hsite, hbyte⟩
    rw [decode_of_syncOfKey (blk := ⟨Instr.site i, Config.resetBuf⟩) hsite, ← hbyte,
      Block.operation_of_admits ⟨hwf, rfl⟩]

theorem decode_eq_none_iff : decode k = none ↔ syncOfKey k = none := by
  refine ⟨fun h => ?_, decode_of_syncOfKey_none⟩
  cases hp : syncOfKey k with
  | none => rfl
  | some p => rw [decode_of_syncOfKey (blk := ⟨p, Config.resetBuf⟩) hp] at h; cases h

/-- The key of an operation holds its position and its byte. -/
theorem encode_eq_keyOf (i : Instr) : encode i = keyOf (Instr.site i).lt (Instr.site i).cnt i.byte := by
  cases i <;> rfl

end

/-! ### The statements about the decoder and the encoder -/

/-- Settles O41: an operation's key has its position and its byte, and only that operation has both. -/
theorem encodedOperationsDecodeBack : Obligations.EncodedOperationsDecodeBack := by
  intro i hwf
  rw [decode_eq_some_iff, encode_eq_keyOf, syncOfKey_keyOf, keyByte_keyOf]
  exact ⟨hwf, rfl, rfl⟩

/-- Settles O42: the position of a decoded key gives back its `LT` and its `CNT`, the latter as 0 in Idle. -/
theorem decodedKeysEncodeBack : Obligations.DecodedKeysEncodeBack := by
  intro k i h
  obtain ⟨hwf, hsite, hbyte⟩ := decode_eq_some_iff.mp h
  obtain ⟨hlt, hcnt⟩ := syncOfKey_eq_some_iff.mp hsite
  refine ⟨hwf, ?_⟩
  rw [encode_eq_keyOf, hlt, hcnt, hbyte]
  split
  next => rfl
  next => exact keyOf_fields k

/-- Settles O43: the rows that match are counted field by field, and none matches exactly where the codes are those
of no position. -/
theorem operationMapIsDisjointAndComplete : Obligations.OperationMapIsDisjointAndComplete := by
  refine ⟨matchCount_eq, fun k => ?_, fun blk b => ⟨blk.operation b, decode_key blk b⟩⟩
  rw [decode_eq_none_iff, filter_selects_eq_nil_iff]

/-- Settles O40: each key is evaluated. -/
theorem workedExampleKeysDecode : Obligations.WorkedExampleKeysDecode := by
  unfold Obligations.WorkedExampleKeysDecode
  decide

/-- What the host's view of the decoder reads is the key of a number of 13 bits. -/
theorem decodeTableWord_eq_some_iff {n w : Nat} {i : Instr} :
    decodeTableWord n w = some i ↔ w < 2 ^ 13 ∧ decode (BitVec.ofNat 13 w) = some i := by
  rw [decodeTableWord, Option.ite_none_right_eq_some]

theorem State.withFetchWord_of_syncOfKey {s : State} {n w : Nat} {p : Sync} (hw : w < 2 ^ 13)
    (h : syncOfKey (BitVec.ofNat 13 w) = some p) :
    s.withFetchWord n w =
      { s with block := { s.block with sync := p }, input := .push (keyByte (BitVec.ofNat 13 w)) :: s.input } := by
  rw [State.withFetchWord, if_pos hw, State.placeKey, h]

/-- Settles O44: the placed key's position admits the decoded operation, and its byte selects it. -/
theorem placedKeyRunsNext : Obligations.PlacedKeyRunsNext := by
  intro s n w i h
  obtain ⟨hw, hdecode⟩ := decodeTableWord_eq_some_iff.mp h
  obtain ⟨hwf, hsite, hbyte⟩ := decode_eq_some_iff.mp hdecode
  have hselect : Block.operation ⟨Instr.site i, s.block.buf⟩ i.byte = i := Block.operation_of_admits ⟨hwf, rfl⟩
  rw [State.withFetchWord_of_syncOfKey hw hsite, ← hbyte]
  constructor
  · rw [step_of_push rfl, hselect]
  · exact ⟨_, step_push_next rfl⟩

/-! ### Axis values (R32, R72) -/

/-- `BE16` is the word `{h, l}` read as two's complement. -/
theorem be16_eq_toInt (h l : Byte) : be16 h l = (h ++ l).toInt := by
  have hn : (h ++ l).toNat = 256 * h.toNat + l.toNat := by
    rw [BitVec.toNat_append, ← Nat.shiftLeft_add_eq_or_of_lt l.isLt, Nat.shiftLeft_eq]
    omega
  rw [BitVec.toInt_eq_toNat_cond, hn]
  simp only [be16]
  split <;> split <;> omega

theorem axisRange_be16 (h l : Byte) : AxisRange (be16 h l) := by
  rw [be16_eq_toInt]
  exact ⟨BitVec.le_toInt (h ++ l), by have := BitVec.toInt_lt (x := h ++ l); omega⟩

/-- A 16-bit port shows `BE16` as the two bytes (R57). -/
theorem ofInt_be16 (h l : Byte) : BitVec.ofInt 16 (be16 h l) = h ++ l := by
  rw [be16_eq_toInt, BitVec.ofInt_toInt]

/-- `BE16` reads back an axis value from its two bytes. -/
theorem be16_axisBytes {v : Int} (h : AxisRange v) :
    be16 ((BitVec.ofInt 16 v).extractLsb' 8 8) ((BitVec.ofInt 16 v).extractLsb' 0 8) = v := by
  obtain ⟨hlo, hhi⟩ := h
  rw [be16_eq_toInt, BitVec.extractLsb'_append_extractLsb']
  exact BitVec.toInt_ofInt_eq_self (by omega) (by omega) (by omega)

/-! ### The outcome of one push -/

section
variable {s t : State} {rest : List Event} {blk : Block} {i : Instr} {p : PayloadType} {c : Count} {b : Byte}
  {f : Frame}

/-- With a type latched the count alone decides the kind of the outcome (R49, R70, R71). -/
theorem Block.pushOutcome_accumulating (h : blk.sync = .accumulating p c) :
    blk.pushOutcome b = if c = 5 then .complete ⟨p.tag, some (decode6 (blk.cell 0) (blk.cell 1) (blk.cell 2)
      (blk.cell 3) (blk.cell 4) b)⟩ else .cont := by
  simp only [Block.pushOutcome, Block.operation, h]
  split
  next => simp only [Instr.outcome, Block.store_five_triplet]
  next => rfl

theorem Block.pushOutcome_idle (h : blk.sync = .idle) :
    blk.pushOutcome b = Instr.outcome (headerOperation b) blk := by
  rw [Block.pushOutcome, Block.operation_idle h]

/-- A frame an operation emits is proper (R55): the header family's have no triplet, and `PAY_FINAL`'s has a
latched type's tag and axes of `BE16`. -/
theorem Instr.outcome_complete_proper (h : Instr.outcome i blk = .complete f) : f.Proper := by
  cases i with
  | hdrReserved => cases h; trivial
  | hdrTelemetry => cases h
  | hdrSetAttitude => cases h
  | hdrAttitudeAchieved => cases h; trivial
  | hdrInvalid b => cases h
  | payAppend p c b => cases h
  | payFinal p b =>
    cases h
    cases p <;> exact ⟨axisRange_be16 _ _, axisRange_be16 _ _, axisRange_be16 _ _⟩

/-- A latched type and its register code name a position. -/
theorem Block.sync_of_lt_ne_none (hlt : blk.lt ≠ 0b00#2) (hcnt : blk.cnt = countCode c) :
    ∃ p : PayloadType, blk.sync = .accumulating p c := by
  cases hs : blk.sync with
  | idle => exact absurd (blk.lt_none_iff.mpr hs) hlt
  | accumulating p d =>
    obtain ⟨-, hd⟩ := (blk.at_iff p d).mpr hs
    exact ⟨p, congrArg (Sync.accumulating p) (countCode_injective (hd.symm.trans hcnt))⟩

end

/-! ### The statements about one push -/

/-- Settles O12: a payload push stores its byte at `CNT`, and `CNT` alone decides the rest. -/
theorem payloadBytesAreData : Obligations.PayloadBytesAreData := by
  intro s k b rest hin hlt hcnt
  obtain ⟨p, hs⟩ := Block.sync_of_lt_ne_none hlt hcnt
  refine ⟨s.afterPush b rest, s.block.pushOutcome b, step_push_next hin, ?_, rfl, ?_⟩
  · rw [State.afterPush_block, Block.afterPush_cell_accumulating hs, if_pos rfl]
  · rw [State.afterPush_block, Block.afterPush_accumulating hs, Block.pushOutcome_accumulating hs,
      ((s.block.at_iff p k).mpr hs).1]
    split
    next => exact ⟨rfl, _, rfl⟩
    next => exact ⟨rfl, rfl, rfl⟩

/-- Settles O16: the one outcome of a push is that of its operation. -/
theorem emittedFramesAreProper : Obligations.EmittedFramesAreProper := by
  intro s t b rest f hin hstep htranscript
  rw [step_push_next hin] at hstep
  cases hstep
  rw [State.afterPush_transcript] at htranscript
  have hout : s.block.pushOutcome b = .complete f := by simpa using htranscript
  exact Instr.outcome_complete_proper hout

/-- Settles O19: a push always steps, and in Idle a byte from 0x04 selects `HDR_INVALID`. -/
theorem everyPushGivesOneOutcome : Obligations.EveryPushGivesOneOutcome := by
  intro s b rest hin
  refine ⟨s.afterPush b rest, s.block.pushOutcome b, step_push_next hin, rfl, rfl, fun hlt hb => ?_⟩
  rw [Block.pushOutcome_idle (s.block.lt_none_iff.mp hlt), headerOperation_invalid hb]
  rfl

/-! ### The ports -/

section
variable {blk : Block} {p : PayloadType} {c : Count} {b : Byte}

/-- The ports of a header byte are those of its operation's outcome (R57, R61 to R65). -/
theorem headerPorts_eq (blk : Block) (b : Byte) :
    headerPorts b = outcomePorts (some (Instr.outcome (headerOperation b) blk)) := by
  unfold headerPorts headerOperation
  split_ifs <;> rfl

theorem PayloadType.portCode_tag (p : PayloadType) : MessageType.portCode p.tag = p.code := by
  cases p <;> decide

/-- The ports of the sixth byte are those of its frame (R106). -/
theorem finalPorts_eq (hlt : blk.lt = p.code) :
    finalPorts blk b = outcomePorts (some (.complete ⟨p.tag, some (decode6 (blk.cell 0) (blk.cell 1) (blk.cell 2)
      (blk.cell 3) (blk.cell 4) b)⟩)) := by
  simp only [finalPorts, outcomePorts, decode6, ofInt_be16, PayloadType.portCode_tag, hlt]

/-- In a cycle with a push the ports show the outcome of that push. -/
theorem pinOutputs_push (blk : Block) (b : Byte) :
    pinOutputs blk ⟨false, true, b⟩ = outcomePorts (some (blk.pushOutcome b)) := by
  simp only [pinOutputs, Bool.false_or, Bool.not_true, Bool.false_eq_true, if_false]
  cases hs : blk.sync with
  | idle => rw [if_pos (blk.lt_none_iff.mpr hs), headerPorts_eq blk, Block.pushOutcome_idle hs]
  | accumulating p c =>
    obtain ⟨hlt, hcnt⟩ := (blk.at_iff p c).mpr hs
    have hfive : blk.cnt = 0b101#3 ↔ c = 5 := hcnt ▸ countCode_injective.eq_iff (b := 5)
    rw [if_neg (hlt ▸ p.code_ne_none), Block.pushOutcome_accumulating hs]
    simp only [hfive]
    split
    next => exact finalPorts_eq hlt
    next => rfl

/-- In reset, or with nothing pushed, the ports show no outcome. -/
theorem pinOutputs_of_no_push {p : PinIn} (h : p.rst = true ∨ p.inValid = false) :
    pinOutputs blk p = outcomePorts none := by
  rw [pinOutputs, if_pos (by simpa using h)]
  rfl

end

/-- Settles O46: by what the cycle asks for, a reset, nothing or a push. -/
theorem portsShowTheOutcome : Obligations.PortsShowTheOutcome := by
  rintro s ⟨_ | _, _ | _, b⟩
  · exact ⟨_, none, step_of_noPush rfl, rfl, rfl, pinOutputs_of_no_push (.inr rfl)⟩
  · exact ⟨_, some (s.block.pushOutcome b), step_push_next rfl, rfl, rfl, pinOutputs_push s.block b⟩
  · exact ⟨_, none, step_of_reset rfl, rfl, rfl, pinOutputs_of_no_push (.inl rfl)⟩
  · exact ⟨_, none, step_of_reset rfl, rfl, rfl, pinOutputs_of_no_push (.inl rfl)⟩

/-- Settles O45: the table of R57, row by row. -/
theorem outcomePortsFollowTheTable : Obligations.OutcomePortsFollowTheTable :=
  ⟨rfl, rfl, rfl, fun _ _ _ => rfl, fun _ _ _ => rfl, rfl, rfl, fun _ _ => pinOutputs_of_no_push⟩

/-! ### What a byte stream is answered with -/

/-- The outcomes of the pushes of a byte list. -/
def Block.pushOutcomes (blk : Block) : List Byte → List PushOutcome
  | [] => []
  | b :: bs => blk.pushOutcome b :: (blk.afterPush b).pushOutcomes bs

section
variable {s : State} {rest : List Event} {blk : Block} {i : Instr} {p : PayloadType} {b : Byte}

@[simp] theorem Block.pushOutcomes_nil (blk : Block) : blk.pushOutcomes [] = [] := rfl

@[simp] theorem Block.pushOutcomes_cons (blk : Block) (b : Byte) (bs : List Byte) :
    blk.pushOutcomes (b :: bs) = blk.pushOutcome b :: (blk.afterPush b).pushOutcomes bs := rfl

@[simp] theorem Block.pushOutcomes_append (blk : Block) (bs cs : List Byte) :
    blk.pushOutcomes (bs ++ cs) = blk.pushOutcomes bs ++ (blk.afterPushes bs).pushOutcomes cs := by
  induction bs generalizing blk with
  | nil => rfl
  | cons b bs ih => simp [ih]

theorem Block.pushOutcomes_concat (blk : Block) (bs : List Byte) (b : Byte) :
    blk.pushOutcomes (bs ++ [b]) = blk.pushOutcomes bs ++ [(blk.afterPushes bs).pushOutcome b] := by simp

@[simp] theorem State.afterPush_outcomes :
    (s.afterPush b rest).outcomes = s.outcomes ++ [s.block.pushOutcome b] := by
  simp [State.outcomes]

/-- Pushing a byte list gives exactly its outcomes, in order (R24, R97). -/
theorem run_pushes_outcomes (bs : List Byte) (h : s.input = pushes bs ++ rest) :
    ∃ t : State, run bs.length s = .next t ∧ t.block = s.block.afterPushes bs ∧
      t.outcomes = s.outcomes ++ s.block.pushOutcomes bs ∧ t.input = rest := by
  induction bs generalizing s with
  | nil => exact ⟨s, rfl, rfl, (List.append_nil _).symm, h⟩
  | cons b bs ih =>
    obtain ⟨t, hrun, hblock, hout, hin⟩ := ih (s := s.afterPush b (pushes bs ++ rest)) rfl
    refine ⟨t, (run_succ_of_next (step_push_next h)).trans hrun, hblock, ?_, hin⟩
    simp [hout]

/-! ### One frame -/

theorem Block.pushOutcome_header (h : blk.sync = .idle) : blk.pushOutcome p.tag.header = .cont := by
  rw [Block.pushOutcome_idle h]
  cases p <;> rfl

/-- A header and the first `n` payload bytes are all answered with `Continue`, up to the fifth. -/
theorem Block.pushOutcomes_partialFrame (h : blk.sync = .idle) (w : Vector Byte 6) {n : Nat} (hn : n < 6) :
    blk.pushOutcomes (p.tag.header :: w.toList.take n) = List.replicate (n + 1) .cont := by
  induction n with
  | zero => simp [Block.pushOutcome_header h]
  | succ n ih =>
    obtain ⟨hs, -⟩ := Block.afterPushes_partialFrame (p := p) h w (show n < 6 by omega)
    have hc : (⟨n, by omega⟩ : Count) ≠ 5 := Fin.ne_of_val_ne (show n ≠ 5 by omega)
    rw [toList_take_succ w (by omega), ← List.cons_append, Block.pushOutcomes_concat, ih (by omega),
      Block.pushOutcome_accumulating hs, if_neg hc, ← List.replicate_succ']

/-- A payload frame from Idle: six times `Continue`, then the triplet of its six bytes (R75). -/
theorem Block.pushOutcomes_wholeFrame (h : blk.sync = .idle) (w : Vector Byte 6) :
    blk.pushOutcomes (p.tag.header :: w.toList) =
      List.replicate 6 .cont ++ [.complete ⟨p.tag, some (Block.triplet ⟨.idle, w⟩)⟩] := by
  obtain ⟨hs, hcell⟩ := Block.afterPushes_partialFrame (p := p) h w (n := 5) (by omega)
  have hlist : w.toList = w.toList.take 5 ++ [w[5]] := by
    rw [← toList_take_succ w (by omega), List.take_of_length_le (by simp)]
  rw [hlist, ← List.cons_append, Block.pushOutcomes_concat, Block.pushOutcomes_partialFrame h w (by omega),
    Block.pushOutcome_accumulating hs, if_pos (show (⟨5, _⟩ : Count) = 5 from rfl)]
  simp only [hcell]
  rfl

/-- A triplet's six payload bytes, as `axisBytes` gives them (R59). -/
def payloadCells (t : Triplet) : Vector Byte 6 :=
  #v[(BitVec.ofInt 16 t.x).extractLsb' 8 8, (BitVec.ofInt 16 t.x).extractLsb' 0 8,
    (BitVec.ofInt 16 t.y).extractLsb' 8 8, (BitVec.ofInt 16 t.y).extractLsb' 0 8,
    (BitVec.ofInt 16 t.z).extractLsb' 8 8, (BitVec.ofInt 16 t.z).extractLsb' 0 8]

theorem payloadCells_toList (t : Triplet) :
    (payloadCells t).toList = axisBytes t.x ++ axisBytes t.y ++ axisBytes t.z := rfl

/-- The extractor reads back a triplet from its six payload bytes in `BUF`. -/
theorem Block.triplet_payloadCells {x y z : Int} (hx : AxisRange x) (hy : AxisRange y) (hz : AxisRange z) (q : Sync) :
    Block.triplet ⟨q, payloadCells ⟨x, y, z⟩⟩ = ⟨x, y, z⟩ := by
  rw [Block.triplet, decode6, Triplet.mk.injEq]
  exact ⟨be16_axisBytes hx, be16_axisBytes hy, be16_axisBytes hz⟩

/-- A triplet's frame, pushed from Idle, ends in Idle and is answered with that triplet (R75). -/
theorem Block.pushes_axisBytes (h : blk.sync = .idle) {x y z : Int} (hx : AxisRange x) (hy : AxisRange y)
    (hz : AxisRange z) :
    (blk.afterPushes (p.tag.header :: (axisBytes x ++ axisBytes y ++ axisBytes z))).sync = .idle ∧
      blk.pushOutcomes (p.tag.header :: (axisBytes x ++ axisBytes y ++ axisBytes z)) =
        List.replicate 6 .cont ++ [.complete ⟨p.tag, some ⟨x, y, z⟩⟩] := by
  rw [← payloadCells_toList ⟨x, y, z⟩, Block.afterPushes_wholeFrame h, Block.pushOutcomes_wholeFrame h,
    Block.triplet_payloadCells hx hy hz]
  exact ⟨rfl, rfl⟩

/-- A byte whose operation goes back to Idle is answered with that operation's outcome. -/
theorem Block.pushes_singleHeader (hop : blk.operation b = i) (hidle : (Instr.after i blk).sync = .idle) :
    (blk.afterPushes [b]).sync = .idle ∧ blk.pushOutcomes [b] = [Instr.outcome i blk] := by
  subst hop
  exact ⟨hidle, rfl⟩

/-- Each frame of R59, pushed from Idle, ends in Idle and is answered with its own outcomes. -/
theorem FrameMacro.pushes_bytes (h : blk.sync = .idle) {m : FrameMacro} (hm : m.InRange) :
    (blk.afterPushes m.bytes).sync = .idle ∧ blk.pushOutcomes m.bytes = m.outcomes := by
  cases m with
  | rsv =>
    have hop : blk.operation MessageType.reserved.header = .hdrReserved :=
      (Block.operation_idle h).trans rfl
    exact Block.pushes_singleHeader hop rfl
  | tel x y z =>
    obtain ⟨hx, hy, hz⟩ := hm
    exact Block.pushes_axisBytes (p := .telemetry) h hx hy hz
  | set x y z =>
    obtain ⟨hx, hy, hz⟩ := hm
    exact Block.pushes_axisBytes (p := .setAttitude) h hx hy hz
  | ach =>
    have hop : blk.operation MessageType.attitudeAchieved.header = .hdrAttitudeAchieved :=
      (Block.operation_idle h).trans rfl
    exact Block.pushes_singleHeader hop rfl

/-- Frames pushed from Idle one after the other end in Idle and are answered one after the other (R102). -/
theorem FrameMacro.pushes_flatMap_bytes (h : blk.sync = .idle) {ms : List FrameMacro} (hms : ∀ m ∈ ms, m.InRange) :
    (blk.afterPushes (ms.flatMap FrameMacro.bytes)).sync = .idle ∧
      blk.pushOutcomes (ms.flatMap FrameMacro.bytes) = ms.flatMap FrameMacro.outcomes := by
  induction ms generalizing blk with
  | nil => exact ⟨h, rfl⟩
  | cons m ms ih =>
    obtain ⟨hm, hms⟩ := List.forall_mem_cons.mp hms
    obtain ⟨hidle, hout⟩ := FrameMacro.pushes_bytes h hm
    obtain ⟨hidle', hout'⟩ := ih hidle hms
    rw [List.flatMap_cons, List.flatMap_cons, Block.afterPushes_append, Block.pushOutcomes_append, hout, hout']
    exact ⟨hidle', rfl⟩

end

/-- Settles O37: by induction on the frames, each of which leaves the block in Idle. -/
theorem streamOfFramesIsDecoded : Obligations.StreamOfFramesIsDecoded := by
  intro ms s rest hlt hms hin
  obtain ⟨t, hrun, hblock, hout, hrest⟩ := run_pushes_outcomes _ hin
  obtain ⟨hidle, hframes⟩ := FrameMacro.pushes_flatMap_bytes (s.block.lt_none_iff.mp hlt) hms
  exact ⟨t, hrun, hframes ▸ hout, t.block.lt_none_iff.mpr (hblock ▸ hidle), hrest⟩

end Sys2Proof.Machine

/-! Proofs of the statements about the header family (40_header.md). An operation is selected by a push, and goes on,
exactly where the block admits it; in Idle no byte of an earlier frame is held, so nothing but the pushed byte counts. -/

namespace Sys2Proof.Machine

section
variable {s : State} {blk blk' : Block} {i : Instr} {b : Byte}

/-! ### Selection and completion (R60) -/

/-- A push selects the operation the block admits that takes the pushed byte. -/
theorem decode_key_eq_some_iff : decode (blk.key b) = some i ↔ blk.Admits i ∧ i.byte = b := by
  rw [decode_key, Option.some.injEq]
  constructor
  · rintro rfl
    exact operation_spec blk b
  · rintro ⟨hadmits, rfl⟩
    exact Block.operation_of_admits hadmits

theorem exec_of_admits (h : s.block.Admits i) :
    exec i s = .next (s.emit i.byte (Instr.outcome i s.block) (Instr.after i s.block)) :=
  (exec_eq_perform i s).trans (perform_of_admits h)

theorem exec_of_not_admits (h : ¬ s.block.Admits i) : exec i s = .refused (.notSelected i) :=
  (exec_eq_perform i s).trans (perform_of_not_admits h)

theorem exec_next_iff : (∃ t : State, exec i s = .next t) ↔ s.block.Admits i :=
  ⟨fun ⟨_, h⟩ => (exec_eq_next h).1, fun h => ⟨_, exec_of_admits h⟩⟩

/-! ### The header family in Idle (R61 to R66) -/

/-- The header family is admitted in Idle and nowhere else. -/
theorem Block.admits_header_iff (hsite : Instr.site i = .idle) : blk.Admits i ↔ WellFormed i ∧ blk.lt = 0b00#2 := by
  rw [Block.Admits, hsite, Block.lt_none_iff]

/-- A push selects an operation of the header family by `LT = NONE` and its byte (R61 to R65). -/
theorem decode_key_header_iff (hsite : Instr.site i = .idle) :
    decode (blk.key b) = some i ↔ WellFormed i ∧ blk.lt = 0b00#2 ∧ b = i.byte := by
  rw [decode_key_eq_some_iff, Block.admits_header_iff hsite, and_assoc, eq_comm (a := b)]

/-- The same for the four headers that are a message type: they are well-formed as they stand. -/
theorem decode_key_message_iff (hsite : Instr.site i = .idle) (hwf : WellFormed i) :
    decode (blk.key b) = some i ↔ blk.lt = 0b00#2 ∧ b = i.byte := by
  rw [decode_key_header_iff hsite, and_iff_right hwf]

theorem exec_header (hsite : Instr.site i = .idle) (hwf : WellFormed i) (hlt : s.block.lt = 0b00#2) :
    exec i s = .next (s.emit i.byte (Instr.outcome i s.block) (Instr.after i s.block)) :=
  exec_of_admits ((Block.admits_header_iff hsite).mpr ⟨hwf, hlt⟩)

/-- In Idle, going to Idle changes nothing (R61, R65). -/
theorem Block.toIdle_of_lt_none (h : blk.lt = 0b00#2) : blk.toIdle = blk :=
  Block.eq_of_cells (blk.lt_none_iff.mp h).symm fun _ => rfl

/-- After a header that latches a type the next byte is the first of the payload, whatever it is (R62, R63). -/
theorem decode_key_latch (blk : Block) (p : PayloadType) (b : Byte) :
    decode ((blk.latch p).key b) = some (.payAppend p 0 b) :=
  decode_key_eq_some_iff.mpr ⟨⟨rfl, rfl⟩, rfl⟩

/-! ### The position after a push -/

/-- The position after a push is a function of the bytes received and the pushed byte. -/
theorem Block.afterPush_sync_eq_of_received_eq (h : blk.received = blk'.received) (b : Byte) :
    (blk.afterPush b).sync = (blk'.afterPush b).sync := by
  have hreceived : (blk.afterPush b).received = (blk'.afterPush b).received := by
    rw [Block.afterPush_received, Block.afterPush_received, Block.pushOutcome_eq_of_received_eq h b, h]
  exact (Block.received_eq_iff.mp hreceived).1

end

/-! ### The statements about the header family -/

/-- Settles O1: `HDR_RESERVED` goes to Idle, which in Idle is the same block. -/
theorem hdrReservedCompletesItsFrame : Obligations.HdrReservedCompletesItsFrame :=
  ⟨fun _ _ => decode_key_message_iff rfl rfl,
    fun _ hlt => ⟨_, exec_header rfl rfl hlt, rfl, rfl, rfl, Block.toIdle_of_lt_none hlt, rfl, rfl⟩⟩

/-- Settles O2: `HDR_TELEMETRY` latches its type with `CNT` = 0, where every byte selects `PAY_APPEND`. -/
theorem hdrTelemetryLatchesTelemetry : Obligations.HdrTelemetryLatchesTelemetry :=
  ⟨fun _ _ => decode_key_message_iff rfl rfl,
    fun _ hlt => ⟨_, exec_header rfl rfl hlt, rfl, rfl, rfl, rfl, rfl, decode_key_latch _ .telemetry⟩⟩

/-- Settles O3: `HDR_SETATTITUDE` latches its type with `CNT` = 0, where every byte selects `PAY_APPEND`. -/
theorem hdrSetAttitudeLatchesSetAttitude : Obligations.HdrSetAttitudeLatchesSetAttitude :=
  ⟨fun _ _ => decode_key_message_iff rfl rfl,
    fun _ hlt => ⟨_, exec_header rfl rfl hlt, rfl, rfl, rfl, rfl, rfl, decode_key_latch _ .setAttitude⟩⟩

/-- Settles O4: `HDR_ATTITUDE_ACHIEVED` goes to Idle and emits its frame. -/
theorem hdrAttitudeAchievedCompletesItsFrame : Obligations.HdrAttitudeAchievedCompletesItsFrame :=
  ⟨fun _ _ => decode_key_message_iff rfl rfl,
    fun _ hlt => ⟨_, exec_header rfl rfl hlt, rfl, rfl, rfl, rfl, rfl⟩⟩

/-- Settles O5: `HDR_INVALID` is well-formed for the bytes from 0x04, and leaves the block it found. -/
theorem hdrInvalidReportsOneError : Obligations.HdrInvalidReportsOneError := by
  have hwf (b : Byte) : WellFormed (.hdrInvalid b) ↔ 4 ≤ b.toNat := decide_eq_true_iff
  refine ⟨fun blk b c => ?_, fun s b hlt hb => ?_⟩
  · rw [decode_key_header_iff rfl, hwf]
    constructor
    · rintro ⟨hc, hlt, rfl⟩
      exact ⟨hlt, hc, rfl⟩
    · rintro ⟨hlt, hb, rfl⟩
      exact ⟨hb, hlt, rfl⟩
  · exact ⟨_, exec_header rfl ((hwf b).mpr hb) hlt, rfl, rfl, rfl, Block.toIdle_of_lt_none hlt, rfl, rfl⟩

/-- Settles O8: by the effect of each operation of the family; `emit` does not touch the events to come. -/
theorem headerFamilyLeavesBufAlone : Obligations.HeaderFamilyLeavesBufAlone := by
  intro i s t hsite hexec
  obtain ⟨-, rfl⟩ := exec_eq_next hexec
  exact ⟨Instr.after_buf_of_site_idle hsite, rfl⟩

/-- Settles O9: two blocks in Idle hold the same bytes of an open frame, namely none, and outcome and position after
a push are functions of those and the pushed byte. -/
theorem idlePushDependsOnTheByteAlone : Obligations.IdlePushDependsOnTheByteAlone := by
  intro s s' t t' b rest rest' hlt hlt' hin hin' hstep hstep'
  rw [step_push_next hin, Host.Outcome.next.injEq] at hstep
  rw [step_push_next hin', Host.Outcome.next.injEq] at hstep'
  subst hstep hstep'
  have hs : s.block.sync = .idle := s.block.lt_none_iff.mp hlt
  have hs' : s'.block.sync = .idle := s'.block.lt_none_iff.mp hlt'
  have hreceived : s.block.received = s'.block.received :=
    (Block.received_of_idle hs).trans (Block.received_of_idle hs').symm
  have hsync := Block.afterPush_sync_eq_of_received_eq hreceived b
  refine ⟨congrArg Sync.lt hsync, congrArg Sync.cnt hsync, Block.afterPush_buf_idle hs,
    Block.afterPush_buf_idle hs', s.block.pushOutcome b, rfl, ?_⟩
  rw [State.afterPush_transcript, Block.pushOutcome_eq_of_received_eq hreceived b]

/-- Settles O18: both sides say that the block admits the operation. -/
theorem execCompletesExactlyWhereSelected : Obligations.ExecCompletesExactlyWhereSelected := by
  intro i s
  have hselected : decode (s.block.key i.byte) = some i ↔ s.block.Admits i := by
    rw [decode_key_eq_some_iff, and_iff_left rfl]
  rw [Ne, hselected]
  exact ⟨exec_next_iff, exec_of_not_admits⟩

/-- Settles O17: the operation the key decodes to is the one the step runs. -/
theorem stepRunsTheDecodedOperation : Obligations.StepRunsTheDecodedOperation := by
  intro s b rest i hin hdecode _
  rw [decode_key, Option.some.injEq] at hdecode
  rw [step_of_push hin, hdecode]

end Sys2Proof.Machine

/-! Proofs of the statements about the payload family (41_payload.md). A payload operation is selected by the latched
type and the count alone; a whole frame fills `BUF`, and the extractor reads its cells as pairs of bytes, none of which
two different words share. -/

namespace Sys2Proof.Machine

section
variable {s : State} {blk : Block} {i : Instr} {p : PayloadType} {c : Count} {b : Byte}

/-! ### The payload family with a type latched (R70, R71) -/

/-- A payload operation is admitted at the latched type and the count its Operands name, and nowhere else. -/
theorem Block.admits_payload_iff (hsite : Instr.site i = .accumulating p c) :
    blk.Admits i ↔ WellFormed i ∧ blk.lt = p.code ∧ blk.cnt = countCode c := by
  rw [Block.Admits, hsite, Block.at_iff]

/-- A push selects a payload operation by the two registers, whatever its byte (R49). -/
theorem decode_key_payload_iff (hsite : Instr.site i = .accumulating p c) :
    decode (blk.key b) = some i ↔ WellFormed i ∧ (blk.lt = p.code ∧ blk.cnt = countCode c) ∧ i.byte = b := by
  rw [decode_key_eq_some_iff, Block.admits_payload_iff hsite, and_assoc]

theorem exec_payload (hsite : Instr.site i = .accumulating p c) (hwf : WellFormed i) (hlt : s.block.lt = p.code)
    (hcnt : s.block.cnt = countCode c) :
    exec i s = .next (s.emit i.byte (Instr.outcome i s.block) (Instr.after i s.block)) :=
  exec_of_admits ((Block.admits_payload_iff hsite).mpr ⟨hwf, hlt, hcnt⟩)

theorem wellFormed_payAppend_iff : WellFormed (.payAppend p c b) ↔ c.val ≤ 4 := decide_eq_true_iff

end

/-! ### The triplet extractor (R72 to R74) -/

/-- Below 128 the high byte gives a word of at most 32767. -/
theorem be16_eq_ite (h l : Byte) : be16 h l =
    if h.toNat < 128 then 256 * (h.toNat : Int) + l.toNat else 256 * (h.toNat : Int) + l.toNat - 65536 := by
  have hhigh : 256 * h.toNat + l.toNat ≤ 32767 ↔ h.toNat < 128 := by omega
  simp only [be16, hhigh, Nat.cast_add, Nat.cast_mul, Nat.cast_ofNat]

/-- The word tells its two bytes apart: each is cut out of it again. -/
theorem be16_inj {h l h' l' : Byte} : be16 h l = be16 h' l' ↔ h = h' ∧ l = l' := by
  constructor
  · intro hsame
    have hword : h ++ l = h' ++ l' := by rw [← ofInt_be16, hsame, ofInt_be16]
    have hhigh := congrArg (BitVec.extractLsb' 8 8) hword
    have hlow := congrArg (BitVec.extractLsb' 0 8) hword
    rw [BitVec.extractLsb'_append_eq_left, BitVec.extractLsb'_append_eq_left] at hhigh
    rw [BitVec.extractLsb'_append_eq_right, BitVec.extractLsb'_append_eq_right] at hlow
    exact ⟨hhigh, hlow⟩
  · rintro ⟨rfl, rfl⟩
    rfl

/-- The triplet determines the six cells. -/
theorem Block.cell_eq_of_triplet_eq {blk blk' : Block} (h : blk.triplet = blk'.triplet) (j : Count) :
    blk.cell j = blk'.cell j := by
  simp only [Block.triplet, decode6, Triplet.mk.injEq, be16_inj] at h
  obtain ⟨⟨h0, h1⟩, ⟨h2, h3⟩, h4, h5⟩ := h
  fin_cases j <;> assumption

/-! ### The statements about the payload family -/

/-- Settles O36: the six bytes are the cells of `BUF`, from which the last push takes its triplet. -/
theorem payloadFrameGivesSevenOutcomes : Obligations.PayloadFrameGivesSevenOutcomes := by
  intro s p p0 p1 p2 p3 p4 p5 rest hlt hin
  have hidle : s.block.sync = .idle := s.block.lt_none_iff.mp hlt
  obtain ⟨t, hrun, hblock, hout, hrest⟩ := run_pushes_outcomes _ hin
  have hframe : [p.tag.header, p0, p1, p2, p3, p4, p5] = p.tag.header :: #v[p0, p1, p2, p3, p4, p5].toList := rfl
  rw [hframe, Block.afterPushes_wholeFrame hidle] at hblock
  rw [hframe, Block.pushOutcomes_wholeFrame hidle] at hout
  exact ⟨t, hrun, hout, congrArg Block.lt hblock, congrArg Block.cnt hblock, congrArg Block.buf hblock, hrest⟩

/-- Settles O6: `PAY_APPEND` is well-formed for the counts to 4, where the code counts up without wrap. -/
theorem payAppendStoresOneByte : Obligations.PayAppendStoresOneByte := by
  refine ⟨fun blk p k b c => ?_, fun s p k b hlt hcnt hk => ?_⟩
  · rw [decode_key_payload_iff rfl, wellFormed_payAppend_iff]
    constructor
    · rintro ⟨hk, ⟨hlt, hcnt⟩, hbyte⟩
      exact ⟨hlt, hcnt, hk, hbyte⟩
    · rintro ⟨hlt, hcnt, hk, hbyte⟩
      exact ⟨hk, ⟨hlt, hcnt⟩, hbyte⟩
  · refine ⟨_, exec_payload rfl (wellFormed_payAppend_iff.mpr hk) hlt hcnt, hlt.symm, ?_, ?_,
      Block.store_cell_same _ k b, fun j hj => Block.store_cell_other _ k j b hj, rfl, rfl⟩
    · exact (countCode_succ hk).trans (congrArg (· + 1#3) hcnt.symm)
    · exact (countCode_toNat (k + 1)).trans (count_succ_val hk)

/-- Settles O7: `PAY_FINAL` is the operation at count 5, and its frame takes five cells and the pushed byte. -/
theorem payFinalCompletesTheFrame : Obligations.PayFinalCompletesTheFrame := by
  refine ⟨fun blk p b c => ?_, fun s p b hlt hcnt => ?_⟩
  · have hwf : WellFormed (.payFinal p c) := rfl
    rw [decode_key_payload_iff rfl, and_iff_right hwf, and_assoc]
    rfl
  · refine ⟨_, exec_payload rfl rfl hlt hcnt, rfl, rfl, Block.store_cell_same _ 5 b,
      fun j hj => Block.store_cell_other _ 5 j b hj, rfl, ?_⟩
    rw [← Block.store_five_triplet]
    rfl

/-- Settles O38: the concatenation's signed reading is in the signed range, and bit 7 of `h` is its sign. -/
theorem be16IsTheSignedWord : Obligations.BE16IsTheSignedWord := fun h l =>
  ⟨be16_eq_toInt h l, axisRange_be16 h l, be16_eq_ite h l⟩

/-- Settles O39: `axisBytes` gives the bytes of an axis value, `payloadCells` those of a triplet, and no other bytes
have the same value. -/
theorem decode6IsABijection : Obligations.Decode6IsABijection := by
  refine ⟨fun p0 p1 p2 p3 p4 p5 => ⟨rfl, axisRange_be16 p0 p1, axisRange_be16 p2 p3, axisRange_be16 p4 p5⟩,
    fun v hv => ?_, fun x y z hx hy hz => ?_⟩
  · refine ⟨(_, _), be16_axisBytes hv, fun q hq => ?_⟩
    obtain ⟨hhigh, hlow⟩ := be16_inj.mp (hq.trans (be16_axisBytes hv).symm)
    exact Prod.ext hhigh hlow
  · have hcells := Block.triplet_payloadCells hx hy hz .idle
    refine ⟨payloadCells ⟨x, y, z⟩, hcells, fun w hw => ?_⟩
    have hsame : Block.triplet ⟨.idle, w⟩ = Block.triplet ⟨.idle, payloadCells ⟨x, y, z⟩⟩ := hw.trans hcells.symm
    exact Vector.ext fun j hj => Block.cell_eq_of_triplet_eq hsame ⟨j, hj⟩

end Sys2Proof.Machine

/-! Proofs of the statements about exceptions and pauses (60_exceptions.md). A step fails only on pushes that are not
serialized; its effect does not look at the exchanges before it, and an event without a push has none but to be
recorded. -/

namespace Sys2Proof.Machine

section
variable {s t u : State} {rest : List Event} {blk : Block} {i : Instr} {b : Byte} {n : Nat}

/-! ### The error (R80 to R83) -/

/-- `HDR_INVALID` is the one operation with an error (R80). -/
theorem Instr.outcome_error_iff : Instr.outcome i blk = .error .invalidHeader ↔ ∃ c : Byte, i = .hdrInvalid c := by
  cases i <;> simp [Instr.outcome]

theorem Block.operation_invalid_iff {c : Byte} :
    blk.operation b = .hdrInvalid c ↔ blk.lt = 0b00#2 ∧ 4 ≤ b.toNat ∧ c = b := by
  rw [← hdrInvalidReportsOneError.1, decode_key, Option.some.injEq]

theorem Block.pushOutcome_error_iff :
    blk.pushOutcome b = .error .invalidHeader ↔ blk.lt = 0b00#2 ∧ 4 ≤ b.toNat := by
  simp [Block.pushOutcome, Instr.outcome_error_iff, Block.operation_invalid_iff]

/-- A push that is answered with the error leaves the block it found (R83). -/
theorem Block.afterPush_of_error (h : blk.pushOutcome b = .error .invalidHeader) : blk.afterPush b = blk := by
  obtain ⟨hlt, hb⟩ := Block.pushOutcome_error_iff.mp h
  rw [Block.afterPush, Block.operation_invalid_iff.mpr ⟨hlt, hb, rfl⟩]
  exact Block.toIdle_of_lt_none hlt

/-! ### Which states have a step (R96, D15) -/

/-- A step goes on and takes the next event, or that event is unserialized pushes. -/
theorem step_next_or_unserialized (s : State) :
    (∃ t : State, step s = .next t ∧ t.input = s.input.tail) ∨
      ∃ (b c : Byte) (rest : List Event), s.input = .unserialized b c :: rest := by
  rcases hin : s.input with _ | ⟨e, rest⟩
  · exact .inl ⟨s, step_of_no_event hin, hin⟩
  · cases e with
    | push b => exact .inl ⟨_, step_push_next hin, rfl⟩
    | reset => exact .inl ⟨_, step_of_reset hin, rfl⟩
    | noPush => exact .inl ⟨_, step_of_noPush hin, rfl⟩
    | unserialized b c => exact .inr ⟨b, c, rest, rfl⟩

/-! ### Earlier exchanges (R84, R102) -/

/-- The state with `earlier` exchanges before its own. -/
def State.withHistory (earlier : List Exchange) (s : State) : State :=
  { s with transcript := s.transcript ++ earlier }

theorem State.withHistory_outcomes (earlier : List Exchange) (s : State) :
    (s.withHistory earlier).outcomes = (earlier.filterMap (·.outcome)).reverse ++ s.outcomes := by
  simp [State.withHistory, State.outcomes]

/-- A step does not look at the exchanges before it. -/
theorem step_of_withHistory {earlier : List Exchange} (h : step (s.withHistory earlier) = .next t) :
    ∃ u : State, step s = .next u ∧ t = u.withHistory earlier := by
  obtain ⟨hin, rfl⟩ | ⟨rest, hin, rfl⟩ | ⟨rest, hin, rfl⟩ | ⟨b, rest, hin, rfl⟩ := step_cases h
  · exact ⟨s, step_of_no_event hin, rfl⟩
  · exact ⟨_, step_of_reset hin, rfl⟩
  · exact ⟨_, step_of_noPush hin, rfl⟩
  · exact ⟨_, step_push_next hin, rfl⟩

theorem run_of_withHistory {earlier : List Exchange} (h : run n (s.withHistory earlier) = .next t) :
    ∃ u : State, run n s = .next u ∧ t = u.withHistory earlier := by
  induction n generalizing s with
  | zero => exact ⟨s, rfl, (Host.Outcome.next.inj h).symm⟩
  | succ n ih =>
    obtain ⟨v, hstep, hrun⟩ := run_succ_cases h
    obtain ⟨v', hstep', rfl⟩ := step_of_withHistory hstep
    obtain ⟨u, hrun', hu⟩ := ih hrun
    exact ⟨u, (run_succ_of_next hstep').trans hrun', hu⟩

/-- In Idle every cell of `BUF` is stale, so the block of the reset state takes the place of any other. -/
theorem State.sameButStale_resetBlock (h : s.block.lt = 0b00#2) :
    s.SameButStale { s with block := State.reset.block } :=
  State.sameButStale_iff.mpr ⟨Block.received_of_idle (s.block.lt_none_iff.mp h), rfl, rfl⟩

/-! ### Pauses (R85, R91, R109) -/

@[simp] theorem State.takeReset_outcomes : s.takeReset.outcomes = s.outcomes := rfl

@[simp] theorem State.takeNoPush_outcomes : s.takeNoPush.outcomes = s.outcomes := rfl

/-- `u` has the registers and the outcomes of `s`, and the same events to come but those without a push. -/
structure State.SameButPauses (s u : State) : Prop where
  block : u.block = s.block
  outcomes : u.outcomes = s.outcomes
  input : u.input = s.input.filter (· ≠ .noPush)

theorem State.sameButPauses_filter (s : State) :
    s.SameButPauses { s with input := s.input.filter (· ≠ .noPush) } := ⟨rfl, rfl, rfl⟩

/-- A step that takes a pause changes nothing else; every other event is also the next one without the pauses, and
does the same there. -/
theorem step_sameButPauses {e : Event} (h : s.SameButPauses u) (hin : s.input = e :: rest)
    (hstep : step s = .next t) :
    t.input = rest ∧ (t.SameButPauses u ∨
      ∃ v : State, step u = .next v ∧ u.input = e :: v.input ∧ t.SameButPauses v) := by
  obtain ⟨hblock, hout, hu⟩ := h
  obtain ⟨hin', rfl⟩ | ⟨rest', hin', rfl⟩ | ⟨rest', hin', rfl⟩ | ⟨b, rest', hin', rfl⟩ := step_cases hstep
  · cases hin.symm.trans hin'
  all_goals
    cases hin.symm.trans hin'
    rw [hin] at hu
    refine ⟨rfl, ?_⟩
  · exact .inr ⟨_, step_of_reset hu, hu, congrArg Block.reset hblock, hout, rfl⟩
  · exact .inl ⟨hblock, hout, hu⟩
  · refine .inr ⟨_, step_push_next hu, hu, congrArg (Block.afterPush · b) hblock, ?_, rfl⟩
    rw [State.afterPush_outcomes, State.afterPush_outcomes, hblock, hout]

/-- A run over all the events to come ends alike without the pauses. -/
theorem run_sameButPauses (h : s.SameButPauses u) (hrun : run s.input.length s = .next t) :
    ∃ v : State, run u.input.length u = .next v ∧ t.SameButPauses v := by
  induction hin : s.input generalizing s u with
  | nil =>
    rw [hin] at hrun
    obtain rfl : s = t := Host.Outcome.next.inj hrun
    have hu : u.input = [] := by rw [h.input, hin, List.filter_nil]
    exact ⟨u, by rw [hu, List.length_nil, run_zero], h⟩
  | cons e rest ih =>
    rw [hin] at hrun
    obtain ⟨s', hstep, hrest⟩ := run_succ_cases hrun
    obtain ⟨rfl, hpause | ⟨u', hstep', hu, h'⟩⟩ := step_sameButPauses h hin hstep
    · exact ih hpause hrest rfl
    · obtain ⟨v, hv, hsame⟩ := ih h' hrest rfl
      exact ⟨v, by rw [hu, List.length_cons, run_succ_of_next hstep', hv], hsame⟩

end

/-! ### The statements about exceptions and pauses -/

/-- Settles O13: the error is the outcome of `HDR_INVALID` alone, which leaves the block it found. -/
theorem errorExactlyForABadHeader : Obligations.ErrorExactlyForABadHeader := by
  intro s t b rest hin hstep
  rw [step_push_next hin, Host.Outcome.next.injEq] at hstep
  subst hstep
  have herror : (s.afterPush b rest).transcript = ⟨.push b, some (.error .invalidHeader)⟩ :: s.transcript ↔
      s.block.pushOutcome b = .error .invalidHeader := by simp
  rw [herror, State.afterPush_block]
  refine ⟨Block.pushOutcome_error_iff, fun h => ?_⟩
  obtain ⟨hlt, -⟩ := Block.pushOutcome_error_iff.mp h
  rw [Block.afterPush_of_error h]
  exact ⟨hlt, congrArg Sync.cnt (s.block.lt_none_iff.mp hlt), rfl⟩

/-- Settles O21: every other event, and no event, goes on. -/
theorem onlyUnserializedPushesAreRefused : Obligations.OnlyUnserializedPushesAreRefused := by
  intro s r
  constructor
  · intro hstep
    obtain ⟨t, hnext, -⟩ | ⟨b, c, rest, hin⟩ := step_next_or_unserialized s
    · cases hnext.symm.trans hstep
    · cases (step_of_unserialized hin).symm.trans hstep
      exact ⟨rfl, b, c, rest, hin⟩
  · rintro ⟨rfl, b, c, rest, hin⟩
    exact step_of_unserialized hin

/-- Settles O22: the next event is no unserialized one, and those after it were among the events to come before. -/
theorem serializedHostAlwaysGoesOn : Obligations.SerializedHostAlwaysGoesOn := by
  intro s hs
  obtain ⟨t, hnext, htail⟩ | ⟨b, c, rest, hin⟩ := step_next_or_unserialized s
  · exact ⟨t, hnext, fun b c hmem => hs b c (List.mem_of_mem_tail (htail ▸ hmem))⟩
  · exact absurd (hin ▸ List.mem_cons_self) (hs b c)

/-- Settles O33: the registers in Idle differ from the reset ones in stale cells alone (O31), and the outcomes given
before stand in the transcript, at which no step looks. -/
theorem idleForgetsThePast : Obligations.IdleForgetsThePast := by
  intro n s t hlt hrun
  obtain ⟨t', hrun', -, -, htranscript, -⟩ := run_sameButStale (State.sameButStale_resetBlock hlt) hrun
  obtain ⟨u, hu, rfl⟩ := run_of_withHistory (s := { State.reset with input := s.input }) hrun'
  refine ⟨u, hu, ?_⟩
  rw [State.outcomes, htranscript]
  exact u.withHistory_outcomes s.transcript

/-- Settles O34: a run and the run without its pauses go through states that are the same but for the pauses to come. -/
theorem pausesChangeNothing : Obligations.PausesChangeNothing := by
  intro s t hrun
  obtain ⟨u, hu, hsame⟩ := run_sameButPauses s.sameButPauses_filter hrun
  exact ⟨u, hu, hsame.block, hsame.outcomes⟩

/-- Settles O35: by induction on the steps, each of which is `step_of_no_event`. -/
theorem stalledFrameIsHeld : Obligations.StalledFrameIsHeld := by
  intro n s hin
  induction n with
  | zero => exact run_zero s
  | succ n ih => exact (run_succ_of_next (step_of_no_event hin)).trans ih

/-- Settles O24: by the two events without a push, and the ports of a cycle without one. -/
theorem noPushHoldsTheState : Obligations.NoPushHoldsTheState :=
  ⟨fun _ => step_of_no_event, fun _ _ hin => ⟨_, step_of_noPush hin, rfl, rfl, rfl⟩,
    fun _ _ _ => congrArg PinOut.outKind (pinOutputs_of_no_push (.inr rfl))⟩

end Sys2Proof.Machine

/-! Proofs of the statements about reset and the end of a payload (70_reset_and_hazards.md). Reset and the sixth
payload byte are the two ways out of AccumulatingPayload: a pause keeps the registers, and a payload byte before the
sixth counts up. -/

namespace Sys2Proof.Machine

/-! ### The end of a payload (R71, R101) -/

section
variable {blk : Block} {p : PayloadType} {c : Count} {b : Byte}

/-- The phase is Idle exactly at the position Idle (R12). -/
theorem Block.phase_idle_iff_sync : blk.phase = .idle ↔ blk.sync = .idle :=
  Block.phase_idle_iff.trans Block.received_eq_nil_iff

/-- A payload byte ends the payload exactly when it is the sixth (R70, R71). -/
theorem Block.afterPush_phase_idle_iff (h : blk.sync = .accumulating p c) :
    (blk.afterPush b).phase = .idle ↔ c = 5 := by
  rw [Block.phase_idle_iff_sync, Block.afterPush_accumulating h]
  split
  next hc => simp [hc]
  next hc => simp [hc]

end

/-! ### The statements about reset and the end of a payload -/

/-- Settles O15: by what the step takes. No event and a pause keep the phase; a push ends the payload only at count 5,
where its outcome is the frame. -/
theorem payloadEndsOnlyBySixthByteOrReset : Obligations.PayloadEndsOnlyBySixthByteOrReset := by
  intro s t hstep hbefore hafter
  obtain ⟨-, rfl⟩ | ⟨rest, hin, rfl⟩ | ⟨rest, -, rfl⟩ | ⟨b, rest, hin, rfl⟩ := step_cases hstep
  · cases hbefore.symm.trans hafter
  · exact .inl ⟨rest, hin, rfl⟩
  · cases hbefore.symm.trans hafter
  · cases hs : s.block.sync with
    | idle => cases hbefore.symm.trans (Block.phase_idle_iff_sync.mpr hs)
    | accumulating p c =>
      obtain rfl : c = 5 := (Block.afterPush_phase_idle_iff hs).mp hafter
      obtain ⟨-, hcnt⟩ := (s.block.at_iff p 5).mpr hs
      have hout := (Block.pushOutcome_accumulating (b := b) hs).trans (if_pos rfl)
      exact .inr ⟨b, rest, _, hin, hcnt, by rw [State.afterPush_transcript, hout]⟩

/-- Settles O23: the step of a reset event is `takeReset`. -/
theorem resetEventClearsTypeAndCount : Obligations.ResetEventClearsTypeAndCount :=
  fun _ _ hin => ⟨_, step_of_reset hin, rfl, rfl, rfl, rfl, rfl, rfl⟩

/-- Settles O47: by the event a cycle's inputs ask for, a reset whatever `in_valid` is, a push, or none. -/
theorem clockEdgeFollowsResetThenPush : Obligations.ClockEdgeFollowsResetThenPush := by
  refine ⟨fun s v b => ?reset, fun s b => ?push, fun s b => ?pause⟩
  case reset => exact ⟨_, step_of_reset rfl, rfl, rfl, rfl, rfl, pinOutputs_of_no_push (.inl rfl)⟩
  case push => rfl
  case pause => exact ⟨_, step_of_noPush rfl, rfl, rfl⟩

end Sys2Proof.Machine
